-- ==== Sys2Proof/Word.lean ====
section
/-! DEFINITION. The word types of the CHIP-8 core (00_scope.md R5, R7, R8): every architectural value is an
unsigned integer of a stated width, bit 0 its least significant bit. -/
namespace Sys2Proof

/-- 8 bits: a memory byte, a general register, a timer, the immediate NN (00_scope.md R5, 30_encoding.md R92). -/
abbrev Byte := BitVec 8

/-- 16 bits: the instruction word, I, PC and a stack entry (00_scope.md R5). -/
abbrev Word := BitVec 16

/-- The 4-bit register index fields X and Y (30_encoding.md R92), and a key index 0x0..0xF (45_input_timers.md R240). -/
abbrev RegIdx := BitVec 4

/-- The 4-bit immediate N (30_encoding.md R92). -/
abbrev Nibble := BitVec 4

/-- The 12-bit address or immediate NNN (30_encoding.md R92). -/
abbrev Addr := BitVec 12

end Sys2Proof
end

