-- ==== Sys2Proof/Machine/Flags.lean ====
section
/-! DEFINITION. The results and flags of the arithmetic of 42_alu.md: computed on exact naturals, then narrowed
(00_scope.md R7). Flag results are exactly those of 42_alu.md R183. -/
namespace Sys2Proof.Machine

/-- A flag as VF holds it: 1 or 0 (42_alu.md R170). -/
def flagByte (c : Bool) : Byte := if c then 1#8 else 0#8

/-- `(a + b) mod 256` (42_alu.md R172, R177). -/
def sum8 (a b : Byte) : Byte := BitVec.ofNat 8 (a.toNat + b.toNat)

/-- `(a + 256 - b) mod 256` (42_alu.md R178, R180). -/
def diff8 (a b : Byte) : Byte := BitVec.ofNat 8 (a.toNat + 256 - b.toNat)

/-- Carry of 8XY4: the exact sum is at least 256 (42_alu.md R177). -/
def carry (a b : Byte) : Bool := decide (256 ≤ a.toNat + b.toNat)

/-- Not-borrow of `a - b`: 1 means no borrow (42_alu.md R178, R180). -/
def notBorrow (a b : Byte) : Bool := decide (b.toNat ≤ a.toNat)

/-- `a >> 1`, a logical shift (42_alu.md R179). -/
def shiftRight8 (a : Byte) : Byte := BitVec.ofNat 8 (a.toNat / 2)

/-- The bit 8XY6 shifts out, bit 0 of the pre-shift value (42_alu.md R179). -/
def shiftedOutLow (a : Byte) : Bool := a.getLsbD 0

/-- `(a << 1) mod 256` (42_alu.md R181). -/
def shiftLeft8 (a : Byte) : Byte := BitVec.ofNat 8 (a.toNat * 2)

/-- The bit 8XYE shifts out, bit 7 of the pre-shift value (42_alu.md R181). -/
def shiftedOutHigh (a : Byte) : Bool := a.getLsbD 7

end Sys2Proof.Machine
end

