-- ==== Sys2Proof/Syntax.lean ====
section
/-! DEFINITION. The instructions of the core: one constructor per row of spec/opcode_table.json, in the table's
order (30_encoding.md R96). Operand fields have exactly the widths of 30_encoding.md R92, so every term is an
instruction the encoding can hold. -/
namespace Sys2Proof

/-- The 34 instructions (30_encoding.md R96, R100). `x` and `y` are register indices, `nn`, `nnn` and `n` the
8-, 12- and 4-bit immediates. -/
inductive Instr where
  /-- `00E0` CLS: clear the display (44_display.md R221). -/
  | cls
  /-- `00EE` RET: return from subroutine (41_control_flow.md R140). -/
  | ret
  /-- `1NNN` JP nnn (41_control_flow.md R141). -/
  | jp (nnn : Addr)
  /-- `2NNN` CALL nnn (41_control_flow.md R142). -/
  | call (nnn : Addr)
  /-- `3XNN` SE Vx, nn (41_control_flow.md R143). -/
  | seVxNn (x : RegIdx) (nn : Byte)
  /-- `4XNN` SNE Vx, nn (41_control_flow.md R144). -/
  | sneVxNn (x : RegIdx) (nn : Byte)
  /-- `5XY0` SE Vx, Vy (41_control_flow.md R145). -/
  | seVxVy (x y : RegIdx)
  /-- `6XNN` LD Vx, nn (42_alu.md R171). -/
  | ldVxNn (x : RegIdx) (nn : Byte)
  /-- `7XNN` ADD Vx, nn (42_alu.md R172). -/
  | addVxNn (x : RegIdx) (nn : Byte)
  /-- `8XY0` LD Vx, Vy (42_alu.md R173). -/
  | ldVxVy (x y : RegIdx)
  /-- `8XY1` OR Vx, Vy (42_alu.md R174). -/
  | orVxVy (x y : RegIdx)
  /-- `8XY2` AND Vx, Vy (42_alu.md R175). -/
  | andVxVy (x y : RegIdx)
  /-- `8XY3` XOR Vx, Vy (42_alu.md R176). -/
  | xorVxVy (x y : RegIdx)
  /-- `8XY4` ADD Vx, Vy (42_alu.md R177). -/
  | addVxVy (x y : RegIdx)
  /-- `8XY5` SUB Vx, Vy (42_alu.md R178). -/
  | subVxVy (x y : RegIdx)
  /-- `8XY6` SHR Vx (42_alu.md R179). The field Y is kept, for the encoding, and never read (log entry 24). -/
  | shrVx (x y : RegIdx)
  /-- `8XY7` SUBN Vx, Vy (42_alu.md R180). -/
  | subnVxVy (x y : RegIdx)
  /-- `8XYE` SHL Vx (42_alu.md R181). The field Y is kept, for the encoding, and never read (log entry 24). -/
  | shlVx (x y : RegIdx)
  /-- `9XY0` SNE Vx, Vy (41_control_flow.md R146). -/
  | sneVxVy (x y : RegIdx)
  /-- `ANNN` LD I, nnn (43_index_memory.md R200). -/
  | ldINnn (nnn : Addr)
  /-- `BNNN` JP V0, nnn (41_control_flow.md R147). -/
  | jpV0 (nnn : Addr)
  /-- `CXNN` RND Vx, nn (42_alu.md R182). -/
  | rnd (x : RegIdx) (nn : Byte)
  /-- `DXYN` DRW Vx, Vy, n (44_display.md R222). -/
  | drw (x y : RegIdx) (n : Nibble)
  /-- `EX9E` SKP Vx (45_input_timers.md R241). -/
  | skp (x : RegIdx)
  /-- `EXA1` SKNP Vx (45_input_timers.md R242). -/
  | sknp (x : RegIdx)
  /-- `FX07` LD Vx, DT (45_input_timers.md R243). -/
  | ldVxDt (x : RegIdx)
  /-- `FX0A` LD Vx, K (45_input_timers.md R244). -/
  | ldVxK (x : RegIdx)
  /-- `FX15` LD DT, Vx (45_input_timers.md R245). -/
  | ldDtVx (x : RegIdx)
  /-- `FX18` LD ST, Vx (45_input_timers.md R246). -/
  | ldStVx (x : RegIdx)
  /-- `FX1E` ADD I, Vx (43_index_memory.md R201). -/
  | addIVx (x : RegIdx)
  /-- `FX29` LD F, Vx (43_index_memory.md R202). -/
  | ldFVx (x : RegIdx)
  /-- `FX33` LD B, Vx (43_index_memory.md R203). -/
  | ldBVx (x : RegIdx)
  /-- `FX55` LD [I], Vx (43_index_memory.md R204). -/
  | ldMemVx (x : RegIdx)
  /-- `FX65` LD Vx, [I] (43_index_memory.md R205). -/
  | ldVxMem (x : RegIdx)
  deriving DecidableEq, Repr

end Sys2Proof
end

