-- ==== Sys2Proof/WellFormed.lean ====
section
/-! DEFINITION. Well-formedness. An `Instr` carries its operands in fields of exactly the encoding's widths
(Syntax.lean), so no ill-formed `Instr` can be written; what can be ill-formed is an instruction WORD, one of the
unknown encodings of 30_encoding.md R98. The two tables here are written from 30_encoding.md R96 and R98, apart
from the decoder, so that the decoder can be held against them. -/
namespace Sys2Proof

/-- The row's mnemonic in spec/opcode_table.json (30_encoding.md R96). -/
def Instr.mnemonic : Instr → String
  | .cls => "CLS"
  | .ret => "RET"
  | .jp _ => "JP"
  | .call _ => "CALL"
  | .seVxNn _ _ => "SE_VX_NN"
  | .sneVxNn _ _ => "SNE_VX_NN"
  | .seVxVy _ _ => "SE_VX_VY"
  | .ldVxNn _ _ => "LD_VX_NN"
  | .addVxNn _ _ => "ADD_VX_NN"
  | .ldVxVy _ _ => "LD_VX_VY"
  | .orVxVy _ _ => "OR"
  | .andVxVy _ _ => "AND"
  | .xorVxVy _ _ => "XOR"
  | .addVxVy _ _ => "ADD_VX_VY"
  | .subVxVy _ _ => "SUB"
  | .shrVx _ _ => "SHR"
  | .subnVxVy _ _ => "SUBN"
  | .shlVx _ _ => "SHL"
  | .sneVxVy _ _ => "SNE_VX_VY"
  | .ldINnn _ => "LD_I_NNN"
  | .jpV0 _ => "JP_V0"
  | .rnd _ _ => "RND"
  | .drw _ _ _ => "DRW"
  | .skp _ => "SKP"
  | .sknp _ => "SKNP"
  | .ldVxDt _ => "LD_VX_DT"
  | .ldVxK _ => "LD_VX_K"
  | .ldDtVx _ => "LD_DT_VX"
  | .ldStVx _ => "LD_ST_VX"
  | .addIVx _ => "ADD_I_VX"
  | .ldFVx _ => "LD_F_VX"
  | .ldBVx _ => "LD_B_VX"
  | .ldMemVx _ => "LD_MEM_VX"
  | .ldVxMem _ => "LD_VX_MEM"

/-- One row of the opcode map: a word `w` is the instruction when `w & mask == match` (30_encoding.md R96). -/
structure OpcodeRow where
  mnemonic : String
  bits     : Word
  mask     : Word
  deriving DecidableEq, Repr

/-- The opcode map of 30_encoding.md R96, in its order. -/
def opcodeMap : List OpcodeRow := [
  ⟨"CLS", 0x00E0#16, 0xFFFF#16⟩,
  ⟨"RET", 0x00EE#16, 0xFFFF#16⟩,
  ⟨"JP", 0x1000#16, 0xF000#16⟩,
  ⟨"CALL", 0x2000#16, 0xF000#16⟩,
  ⟨"SE_VX_NN", 0x3000#16, 0xF000#16⟩,
  ⟨"SNE_VX_NN", 0x4000#16, 0xF000#16⟩,
  ⟨"SE_VX_VY", 0x5000#16, 0xF00F#16⟩,
  ⟨"LD_VX_NN", 0x6000#16, 0xF000#16⟩,
  ⟨"ADD_VX_NN", 0x7000#16, 0xF000#16⟩,
  ⟨"LD_VX_VY", 0x8000#16, 0xF00F#16⟩,
  ⟨"OR", 0x8001#16, 0xF00F#16⟩,
  ⟨"AND", 0x8002#16, 0xF00F#16⟩,
  ⟨"XOR", 0x8003#16, 0xF00F#16⟩,
  ⟨"ADD_VX_VY", 0x8004#16, 0xF00F#16⟩,
  ⟨"SUB", 0x8005#16, 0xF00F#16⟩,
  ⟨"SHR", 0x8006#16, 0xF00F#16⟩,
  ⟨"SUBN", 0x8007#16, 0xF00F#16⟩,
  ⟨"SHL", 0x800E#16, 0xF00F#16⟩,
  ⟨"SNE_VX_VY", 0x9000#16, 0xF00F#16⟩,
  ⟨"LD_I_NNN", 0xA000#16, 0xF000#16⟩,
  ⟨"JP_V0", 0xB000#16, 0xF000#16⟩,
  ⟨"RND", 0xC000#16, 0xF000#16⟩,
  ⟨"DRW", 0xD000#16, 0xF000#16⟩,
  ⟨"SKP", 0xE09E#16, 0xF0FF#16⟩,
  ⟨"SKNP", 0xE0A1#16, 0xF0FF#16⟩,
  ⟨"LD_VX_DT", 0xF007#16, 0xF0FF#16⟩,
  ⟨"LD_VX_K", 0xF00A#16, 0xF0FF#16⟩,
  ⟨"LD_DT_VX", 0xF015#16, 0xF0FF#16⟩,
  ⟨"LD_ST_VX", 0xF018#16, 0xF0FF#16⟩,
  ⟨"ADD_I_VX", 0xF01E#16, 0xF0FF#16⟩,
  ⟨"LD_F_VX", 0xF029#16, 0xF0FF#16⟩,
  ⟨"LD_B_VX", 0xF033#16, 0xF0FF#16⟩,
  ⟨"LD_MEM_VX", 0xF055#16, 0xF0FF#16⟩,
  ⟨"LD_VX_MEM", 0xF065#16, 0xF0FF#16⟩]

/-- `w` has the fixed bits of the row (30_encoding.md R96). -/
def OpcodeRow.holds (r : OpcodeRow) (w : Word) : Bool := w &&& r.mask == r.bits

/-- The unknown encodings, class by class as 30_encoding.md R98 lists them. -/
def unknownWord (w : Word) : Bool :=
  let f := w.toNat / 0x1000
  let n := w.toNat % 0x10
  let nn := w.toNat % 0x100
  (f == 0x0 && !([0x00E0, 0x00EE].contains w.toNat))
    || (f == 0x5 && n != 0)
    || (f == 0x8 && [0x8, 0x9, 0xA, 0xB, 0xC, 0xD, 0xF].contains n)
    || (f == 0x9 && n != 0)
    || (f == 0xE && !([0x9E, 0xA1].contains nn))
    || (f == 0xF && !([0x07, 0x0A, 0x15, 0x18, 0x1E, 0x29, 0x33, 0x55, 0x65].contains nn))

/-- A word is well formed when some row of the opcode map has it (30_encoding.md R96); a word that is not is
skipped and reported as an unknown opcode (30_encoding.md R99). -/
def wellFormedWord (w : Word) : Bool := opcodeMap.any fun r => r.holds w

end Sys2Proof
end

