-- ==== Sys2Proof/Decode.lean ====
section
/-! DEFINITION. The instruction decoder, total on any word and pure (30_encoding.md R92, R94, R95), and after it
the encoder, written from the patterns of 30_encoding.md R96. -/
namespace Sys2Proof

/-- Nibble 1, `F` = w[15:12], the family (30_encoding.md R92). -/
def fieldF (w : Word) : Nibble := w.extractLsb' 12 4

/-- `X` = w[11:8] (30_encoding.md R92). -/
def fieldX (w : Word) : RegIdx := w.extractLsb' 8 4

/-- `Y` = w[7:4] (30_encoding.md R92). -/
def fieldY (w : Word) : RegIdx := w.extractLsb' 4 4

/-- `N` = w[3:0] (30_encoding.md R92). -/
def fieldN (w : Word) : Nibble := w.extractLsb' 0 4

/-- `NN` = w[7:0] (30_encoding.md R92). -/
def fieldNN (w : Word) : Byte := w.extractLsb' 0 8

/-- `NNN` = w[11:0] (30_encoding.md R92). -/
def fieldNNN (w : Word) : Addr := w.extractLsb' 0 12

/-- What the decoder answers: one instruction with its operand fields, or `Unknown(w)` (30_encoding.md R94). -/
inductive Decoded where
  /-- A word of the opcode map (30_encoding.md R96). -/
  | instr (i : Instr)
  /-- A word of the unknown space, kept whole for the report (30_encoding.md R98, 60_exceptions.md R262). -/
  | unknown (w : Word)
  deriving DecidableEq, Repr

/-- Family 0x0: only the two words 00E0 and 00EE are instructions (30_encoding.md R95). -/
def decode0 (w : Word) : Decoded :=
  if w = 0x00E0#16 then .instr .cls
  else if w = 0x00EE#16 then .instr .ret
  else .unknown w

/-- Family 0x8, selected by the low nibble (30_encoding.md R95). -/
def decode8 (w : Word) : Decoded :=
  match fieldN w with
  | 0x0#4 => .instr (.ldVxVy (fieldX w) (fieldY w))
  | 0x1#4 => .instr (.orVxVy (fieldX w) (fieldY w))
  | 0x2#4 => .instr (.andVxVy (fieldX w) (fieldY w))
  | 0x3#4 => .instr (.xorVxVy (fieldX w) (fieldY w))
  | 0x4#4 => .instr (.addVxVy (fieldX w) (fieldY w))
  | 0x5#4 => .instr (.subVxVy (fieldX w) (fieldY w))
  | 0x6#4 => .instr (.shrVx (fieldX w) (fieldY w))
  | 0x7#4 => .instr (.subnVxVy (fieldX w) (fieldY w))
  | 0xE#4 => .instr (.shlVx (fieldX w) (fieldY w))
  | _ => .unknown w

/-- Family 0xE, selected by the low byte (30_encoding.md R95). -/
def decodeE (w : Word) : Decoded :=
  match fieldNN w with
  | 0x9E#8 => .instr (.skp (fieldX w))
  | 0xA1#8 => .instr (.sknp (fieldX w))
  | _ => .unknown w

/-- Family 0xF, selected by the low byte (30_encoding.md R95). -/
def decodeF (w : Word) : Decoded :=
  match fieldNN w with
  | 0x07#8 => .instr (.ldVxDt (fieldX w))
  | 0x0A#8 => .instr (.ldVxK (fieldX w))
  | 0x15#8 => .instr (.ldDtVx (fieldX w))
  | 0x18#8 => .instr (.ldStVx (fieldX w))
  | 0x1E#8 => .instr (.addIVx (fieldX w))
  | 0x29#8 => .instr (.ldFVx (fieldX w))
  | 0x33#8 => .instr (.ldBVx (fieldX w))
  | 0x55#8 => .instr (.ldMemVx (fieldX w))
  | 0x65#8 => .instr (.ldVxMem (fieldX w))
  | _ => .unknown w

/-- The decode procedure of 30_encoding.md R95. Every fixed digit of a pattern is checked (R97; log entry 11 for
92_eei_decisions.md D4 and D5: UNVERIFIED, unsafe). -/
def decode (w : Word) : Decoded :=
  match fieldF w with
  | 0x0#4 => decode0 w
  | 0x1#4 => .instr (.jp (fieldNNN w))
  | 0x2#4 => .instr (.call (fieldNNN w))
  | 0x3#4 => .instr (.seVxNn (fieldX w) (fieldNN w))
  | 0x4#4 => .instr (.sneVxNn (fieldX w) (fieldNN w))
  | 0x5#4 => if fieldN w = 0x0#4 then .instr (.seVxVy (fieldX w) (fieldY w)) else .unknown w
  | 0x6#4 => .instr (.ldVxNn (fieldX w) (fieldNN w))
  | 0x7#4 => .instr (.addVxNn (fieldX w) (fieldNN w))
  | 0x8#4 => decode8 w
  | 0x9#4 => if fieldN w = 0x0#4 then .instr (.sneVxVy (fieldX w) (fieldY w)) else .unknown w
  | 0xA#4 => .instr (.ldINnn (fieldNNN w))
  | 0xB#4 => .instr (.jpV0 (fieldNNN w))
  | 0xC#4 => .instr (.rnd (fieldX w) (fieldNN w))
  | 0xD#4 => .instr (.drw (fieldX w) (fieldY w) (fieldN w))
  | 0xE#4 => decodeE w
  | _ => decodeF w

/-- The instruction word of two consecutive bytes, the first the high byte (20_memory.md R65, 30_encoding.md R90). -/
def wordOfBytes (hi lo : Byte) : Word := hi ++ lo

/-- The first byte of a word in memory, its bits 15-8 (20_memory.md R65). -/
def highByte (w : Word) : Byte := w.extractLsb' 8 8

/-- The second byte of a word in memory, its bits 7-0 (20_memory.md R65). -/
def lowByte (w : Word) : Byte := w.extractLsb' 0 8

/-- Decode the two bytes of an instruction in memory order: every instruction is exactly 2 bytes (30_encoding.md R91). -/
def decodeBytes (hi lo : Byte) : Decoded := decode (wordOfBytes hi lo)

/-- The word of an instruction: the pattern of its row with the operand fields in place (30_encoding.md R96). -/
def encode : Instr → Word
  | .cls => 0x00E0#16
  | .ret => 0x00EE#16
  | .jp nnn => 0x1#4 ++ nnn
  | .call nnn => 0x2#4 ++ nnn
  | .seVxNn x nn => 0x3#4 ++ x ++ nn
  | .sneVxNn x nn => 0x4#4 ++ x ++ nn
  | .seVxVy x y => 0x5#4 ++ x ++ y ++ 0x0#4
  | .ldVxNn x nn => 0x6#4 ++ x ++ nn
  | .addVxNn x nn => 0x7#4 ++ x ++ nn
  | .ldVxVy x y => 0x8#4 ++ x ++ y ++ 0x0#4
  | .orVxVy x y => 0x8#4 ++ x ++ y ++ 0x1#4
  | .andVxVy x y => 0x8#4 ++ x ++ y ++ 0x2#4
  | .xorVxVy x y => 0x8#4 ++ x ++ y ++ 0x3#4
  | .addVxVy x y => 0x8#4 ++ x ++ y ++ 0x4#4
  | .subVxVy x y => 0x8#4 ++ x ++ y ++ 0x5#4
  | .shrVx x y => 0x8#4 ++ x ++ y ++ 0x6#4
  | .subnVxVy x y => 0x8#4 ++ x ++ y ++ 0x7#4
  | .shlVx x y => 0x8#4 ++ x ++ y ++ 0xE#4
  | .sneVxVy x y => 0x9#4 ++ x ++ y ++ 0x0#4
  | .ldINnn nnn => 0xA#4 ++ nnn
  | .jpV0 nnn => 0xB#4 ++ nnn
  | .rnd x nn => 0xC#4 ++ x ++ nn
  | .drw x y n => 0xD#4 ++ x ++ y ++ n
  | .skp x => 0xE#4 ++ x ++ 0x9E#8
  | .sknp x => 0xE#4 ++ x ++ 0xA1#8
  | .ldVxDt x => 0xF#4 ++ x ++ 0x07#8
  | .ldVxK x => 0xF#4 ++ x ++ 0x0A#8
  | .ldDtVx x => 0xF#4 ++ x ++ 0x15#8
  | .ldStVx x => 0xF#4 ++ x ++ 0x18#8
  | .addIVx x => 0xF#4 ++ x ++ 0x1E#8
  | .ldFVx x => 0xF#4 ++ x ++ 0x29#8
  | .ldBVx x => 0xF#4 ++ x ++ 0x33#8
  | .ldMemVx x => 0xF#4 ++ x ++ 0x55#8
  | .ldVxMem x => 0xF#4 ++ x ++ 0x65#8

/-- The table's word of `nbits` bits, every bit above them 0. -/
def tableWord (nbits w : Nat) : Word := BitVec.ofNat 16 (w % 2 ^ nbits)

/-- The host's question: the instruction the decoder reads from the bytes of `w`, laid out as memory holds them. -/
def decodeTableWord (nbits w : Nat) : Option Instr :=
  match decodeBytes (highByte (tableWord nbits w)) (lowByte (tableWord nbits w)) with
  | .instr i => some i
  | .unknown _ => none

end Sys2Proof
end

