-- ==== Sys2Proof/Config.lean ====
section
/-! DEFINITION. What this hardware fixes (00_scope.md R5) and the one free value of the model. The font's place
and bytes stand in Machine/Font.lean. -/
namespace Sys2Proof.Config

/-- `MEM_SIZE`: addresses 0x000 to 0xFFF (00_scope.md R5). -/
abbrev memSize : Nat := 4096

/-- `PROG_BASE`: the program load address and the reset value of PC (00_scope.md R5, 70_reset_and_hazards.md R291). -/
abbrev progBase : Nat := 0x200

/-- `ROM_MAX` = 4096 - 0x200 (00_scope.md R5, 70_reset_and_hazards.md R292). -/
abbrev romMax : Nat := 3584

/-- `DISP_W`: columns of the display (00_scope.md R5). -/
abbrev dispW : Nat := 64

/-- `DISP_H`: rows of the display (00_scope.md R5). -/
abbrev dispH : Nat := 32

/-- FREE VALUE (log entry 1; DESIGN CHOICE for its form, safe). The byte the environment's `draw_rng()` supplies
at the n-th execution of CXNN (42_alu.md R182, 92_eei_decisions.md D17: "the model takes each byte as a free draw
under no law"). It has no body: nothing can be proved of its value, so a theorem holds for every generator. -/
opaque randomByte : Nat → Byte

end Sys2Proof.Config
end

