-- ==== Sys2Proof/Machine/Font.lean ====
section
/-! DEFINITION. The built-in font and the memory contents after construction (10_state.md R43, R48): what an
address reads as that the state's memory list does not hold. -/
namespace Sys2Proof.Machine

/-- `FONT_BASE` (00_scope.md R5; the spec's own decision 92_eei_decisions.md D10, log entry 6: UNVERIFIED, unsafe). -/
def fontBase : Nat := 0x050

/-- `FONT_GLYPH_BYTES` (00_scope.md R5). -/
def fontGlyphBytes : Nat := 5

/-- Glyphs 0 to 7 of `FONT` (10_state.md R43). -/
def fontLow : List Byte := [
  0xF0#8, 0x90#8, 0x90#8, 0x90#8, 0xF0#8,
  0x20#8, 0x60#8, 0x20#8, 0x20#8, 0x70#8,
  0xF0#8, 0x10#8, 0xF0#8, 0x80#8, 0xF0#8,
  0xF0#8, 0x10#8, 0xF0#8, 0x10#8, 0xF0#8,
  0x90#8, 0x90#8, 0xF0#8, 0x10#8, 0x10#8,
  0xF0#8, 0x80#8, 0xF0#8, 0x10#8, 0xF0#8,
  0xF0#8, 0x80#8, 0xF0#8, 0x90#8, 0xF0#8,
  0xF0#8, 0x10#8, 0x20#8, 0x40#8, 0x40#8]

/-- Glyphs 8 to F of `FONT` (10_state.md R43). -/
def fontHigh : List Byte := [
  0xF0#8, 0x90#8, 0xF0#8, 0x90#8, 0xF0#8,
  0xF0#8, 0x90#8, 0xF0#8, 0x10#8, 0xF0#8,
  0xF0#8, 0x90#8, 0xF0#8, 0x90#8, 0x90#8,
  0xE0#8, 0x90#8, 0xE0#8, 0x90#8, 0xE0#8,
  0xF0#8, 0x80#8, 0x80#8, 0x80#8, 0xF0#8,
  0xE0#8, 0x90#8, 0x90#8, 0x90#8, 0xE0#8,
  0xF0#8, 0x80#8, 0xF0#8, 0x80#8, 0xF0#8,
  0xF0#8, 0x80#8, 0xF0#8, 0x80#8, 0x80#8]

/-- `FONT`: 16 glyphs of 5 bytes, top row first (10_state.md R43; the bytes are the spec's own decision
92_eei_decisions.md D11, log entry 5: UNVERIFIED, unsafe). -/
def font : List Byte := fontLow ++ fontHigh

/-- 80 glyph bytes, the form of the parameter `FONT` (00_scope.md R5, 10_state.md R43). -/
abbrev FontTable := Vector Byte 80

/-- The default value of `FONT`: the table of 10_state.md R43. -/
def defaultFont : FontTable := Vector.ofFn fun k => font.getD k.val 0x00#8

/-- The byte an address holds after construction with the default `FONT`: the font at `FONT_BASE`, zero elsewhere
(10_state.md R48). This is what an address that the memory list does not hold reads as (log entry 7); a core
constructed with another `FONT` lists its bytes where they differ. -/
def initialByte (a : Nat) : Byte :=
  if fontBase ≤ a then font.getD (a - fontBase) 0x00#8 else 0x00#8

end Sys2Proof.Machine
end

