-- ==== Sys2Proof/Machine/State.lean ====
section
/-! DEFINITION. The state of the block (10_state.md R30, R47), its value after construction (10_state.md R48),
and the reasons a step can stop. -/
namespace Sys2Proof.Machine

/-- The executor's state (10_state.md R44, 40_executor.md R124). -/
inductive ExecState where
  | running
  | awaitingKey
  deriving DecidableEq, Repr

/-- What the last completed step reported to the host (60_exceptions.md R260). The two fatal outcomes are faults
and leave no state, so they do not stand here. The MODEL'S OWN record (log entry 3). -/
inductive StepReport where
  /-- No step has been taken since construction. -/
  | noStep
  /-- A defined instruction completed (40_executor.md R129). -/
  | normal
  /-- FX0A found no key pressed (60_exceptions.md R265). -/
  | waitingForKey
  /-- The fetched word was the unknown word `w` (60_exceptions.md R262). -/
  | unknownOpcode (w : Word)
  deriving DecidableEq, Repr

/-- The display buffer: 32 rows of 64 cells, row 0 at the top, column 0 at the left, true is on (10_state.md R41). -/
abbrev Display := Vector (Vector Bool 64) 32

/-- The state of the block (10_state.md R30), then the model's own two fields. -/
structure State where
  /-- `Mem`: the bytes that differ from the reset contents, addresses strictly rising (10_state.md R43). -/
  mem       : List Host.Cell
  /-- `V[0..15]`, VF last (10_state.md R31, R32). -/
  v         : Vector Byte 16
  /-- `I` (10_state.md R36). -/
  i         : Word
  /-- `PC`: the address of the next instruction to fetch (10_state.md R34). -/
  pc        : Word
  /-- `Stack[0..15]` (10_state.md R37). -/
  stack     : Vector Word 16
  /-- `SP`, the stack depth 0..16 (10_state.md R37). -/
  sp        : Fin 17
  /-- `DT`, the delay timer (10_state.md R39). -/
  dt        : Byte
  /-- `ST`, the sound timer (10_state.md R40). -/
  st        : Byte
  /-- `Disp` (10_state.md R41). -/
  disp      : Display
  /-- `Key[0..15]`, true is pressed (10_state.md R42). -/
  key       : Vector Bool 16
  /-- `exec_state` (10_state.md R44). -/
  execState : ExecState
  /-- `loaded`: a ROM has been loaded (10_state.md R45). -/
  loaded    : Bool
  /-- The model's own: what the last step reported (log entry 3). -/
  report    : StepReport
  /-- The model's own: how many random bytes have been drawn (log entry 2). -/
  draws     : Nat
  deriving DecidableEq, Repr

/-- The fatal outcomes of a step (60_exceptions.md R260). Nothing else ends a run. -/
inductive Fault where
  /-- Raised by CALL (2NNN) at SP = 16 (60_exceptions.md R263). Safe: the spec gives it as fatal, the state
  unmodified, and no claim can be made past it. -/
  | stackOverflow
  /-- Raised by RET (00EE) at SP = 0 (60_exceptions.md R264). Safe, as above. -/
  | stackUnderflow
  deriving DecidableEq, Repr

/-- What has no meaning in the spec, refused by name. -/
inductive Refusal where
  /-- An instruction exec gives no meaning. No arm raises it: every instruction is modelled. Safe. -/
  | notModelled (mnemonic : String)
  /-- Raised by a step while `loaded` = 0 (10_state.md R45, 70_reset_and_hazards.md R295). Safe. -/
  | notLoaded
  /-- Raised by a second `load_rom` (70_reset_and_hazards.md R292). Safe. -/
  | alreadyLoaded
  /-- Raised by `set_key` with an index above 0xF (60_exceptions.md R272). Safe. -/
  | keyOutsideKeypad
  deriving DecidableEq, Repr

/-- The state after construction (10_state.md R48, 70_reset_and_hazards.md R290). The values of I, Stack, Key and
exec_state are the spec's own decision 92_eei_decisions.md D22 (log entry 4); `report` and `draws` are the model's
(log entries 2 and 3). -/
def State.reset : State where
  mem       := []
  v         := Vector.replicate 16 0x00#8
  i         := 0x0000#16
  pc        := 0x0200#16
  stack     := Vector.replicate 16 0x0000#16
  sp        := 0
  dt        := 0x00#8
  st        := 0x00#8
  disp      := Vector.replicate 32 (Vector.replicate 64 false)
  key       := Vector.replicate 16 false
  execState := .running
  loaded    := false
  report    := .noStep
  draws     := 0

end Sys2Proof.Machine
end

