-- ==== Sys2Proof/Machine/Ops.lean ====
section
/-! DEFINITION. The named operations over memory, registers, stack, keypad and display, and the ways a step ends.
The block has no exception entry and no return from one (60_exceptions.md R267, R268): in their place stand the
step outcomes of 60_exceptions.md R260, each written once here. -/
namespace Sys2Proof.Machine

/-- The three outcomes of this machine's steps. -/
abbrev Result := Host.Outcome State Fault Refusal

/-! Memory -/

/-- The byte at address `a` of a memory list; an unlisted address reads as it did after construction. -/
def Memory.lookup : List Host.Cell → Nat → Byte
  | [], a => initialByte a
  | (b, v) :: m, a => if b = a then v else Memory.lookup m a

/-- The list without any entry for `a`. -/
def Memory.erase : List Host.Cell → Nat → List Host.Cell
  | [], _ => []
  | (b, v) :: m, a => if b = a then Memory.erase m a else (b, v) :: Memory.erase m a

/-- The list with an entry for `a` before the first higher address. -/
def Memory.insert : List Host.Cell → Nat → Byte → List Host.Cell
  | [], a, v => [(a, v)]
  | (b, u) :: m, a, v => if a < b then (a, v) :: (b, u) :: m else (b, u) :: Memory.insert m a v

/-- Write one byte, keeping the canonical form: no entry equals what an unlisted address reads as. -/
def Memory.write (m : List Host.Cell) (a : Nat) (v : Byte) : List Host.Cell :=
  if v = initialByte a then Memory.erase m a else Memory.insert (Memory.erase m a) a v

/-- The canonical form from address `lo` on: addresses strictly rising and inside the 4096 bytes, no entry equal
to what an unlisted address reads as. -/
def Memory.wfFrom (lo : Nat) : List Host.Cell → Bool
  | [] => true
  | (a, v) :: m => decide (lo ≤ a) && decide (a < Config.memSize) && !(v == initialByte a) && Memory.wfFrom (a + 1) m

/-- The canonical form of a memory list. -/
def Memory.wf (m : List Host.Cell) : Bool := Memory.wfFrom 0 m

/-- Every address is reduced modulo 4096 (00_scope.md R10, 20_memory.md R63, 90_conflicts.md C8). -/
def wrapAddr (a : Nat) : Nat := a % Config.memSize

/-- `MemRead(a, 1)` (00_scope.md R10). -/
def State.memByte (s : State) (a : Nat) : Byte := Memory.lookup s.mem (wrapAddr a)

/-- `MemWrite(a, 1, b)` (00_scope.md R10). -/
def State.setByte (s : State) (a : Nat) (b : Byte) : State :=
  { s with mem := Memory.write s.mem (wrapAddr a) b }

/-- One-byte writes at consecutive addresses from `a` (20_memory.md R67, 43_index_memory.md R206). -/
def State.storeBytes (s : State) (a : Nat) : List Byte → State
  | [] => s
  | b :: bs => (s.setByte a b).storeBytes (a + 1) bs

/-- The instruction word at PC: two bytes, the first the high byte, both addresses modulo 4096, whatever PC's low
bit is (30_encoding.md R90, 20_memory.md R66; log entry 10 for 92_eei_decisions.md D3). -/
def State.fetchWord (s : State) : Word :=
  wordOfBytes (s.memByte s.pc.toNat) (s.memByte (s.pc.toNat + 1))

/-! Registers -/

/-- The flag register VF (10_state.md R32). -/
abbrev vf : RegIdx := 0xF#4

/-- Read V[x] (10_state.md R31). -/
def State.getV (s : State) (x : RegIdx) : Byte := s.v[x.toNat]

/-- Write V[x] (10_state.md R31). -/
def State.setV (s : State) (x : RegIdx) (b : Byte) : State := { s with v := s.v.set x.toNat b }

/-- Write a result and then the flag: V[x] first and VF last, so that with X = F register VF holds the flag
(42_alu.md R170, 90_conflicts.md C4; log entry 12 for 92_eei_decisions.md D6). -/
def State.setVWithFlag (s : State) (x : RegIdx) (res flag : Byte) : State := (s.setV x res).setV vf flag

/-- `V[k] <- MemRead(a + k)` for every `k` up to `x`; registers above `x` keep their value (43_index_memory.md R205). -/
def State.loadRegs (s : State) (x : RegIdx) (a : Nat) : State :=
  { s with v := Vector.ofFn fun k : Fin 16 => if k.val ≤ x.toNat then s.memByte (a + k.val) else s.v[k.val] }

/-- V0 to Vx, in order (43_index_memory.md R204). -/
def State.firstRegs (s : State) (x : RegIdx) : List Byte := s.v.toList.take (x.toNat + 1)

/-- Write I (10_state.md R36). -/
def State.setI (s : State) (w : Word) : State := { s with i := w }

/-- Write PC (10_state.md R34). -/
def State.setPc (s : State) (w : Word) : State := { s with pc := w }

/-- Write DT (10_state.md R39). -/
def State.setDt (s : State) (b : Byte) : State := { s with dt := b }

/-- Write ST (10_state.md R40). -/
def State.setSt (s : State) (b : Byte) : State := { s with st := b }

/-- Write the whole display buffer (10_state.md R41). -/
def State.setDisp (s : State) (d : Display) : State := { s with disp := d }

/-- Write exec_state (10_state.md R44). -/
def State.setExec (s : State) (e : ExecState) : State := { s with execState := e }

/-- Write the loaded flag (10_state.md R45). -/
def State.setLoaded (s : State) (b : Bool) : State := { s with loaded := b }

/-- Record the step's report (60_exceptions.md R260). -/
def State.setReport (s : State) (r : StepReport) : State := { s with report := r }

/-! Keypad -/

/-- `Key[k]` (10_state.md R42). -/
def State.keyDown (s : State) (k : RegIdx) : Bool := s.key[k.toNat]

/-- `Key[k] <- pressed` (60_exceptions.md R272). -/
def State.setKeyAt (s : State) (k : RegIdx) (pressed : Bool) : State := { s with key := s.key.set k.toNat pressed }

/-- The smallest index whose key is pressed (45_input_timers.md R244; log entry 14 for 92_eei_decisions.md D13). -/
def State.lowestKey (s : State) : Option Nat := s.key.toList.findIdx? id

/-! The random source -/

/-- `draw_rng()`: the next free byte (42_alu.md R182). -/
def State.drawnByte (s : State) : Byte := Config.randomByte s.draws

/-- The draw just made is not made again: the next one is the generator's next byte. -/
def State.nextDraw (s : State) : State := { s with draws := s.draws + 1 }

/-! Stack -/

/-- Push, allowed only when SP < 16: `Stack[SP] <- w; SP <- SP + 1` (10_state.md R37). -/
def State.push (s : State) (w : Word) : Option State :=
  if h : s.sp.val < 16 then
    some { s with stack := s.stack.set s.sp.val w h, sp := ⟨s.sp.val + 1, Nat.succ_lt_succ h⟩ }
  else none

/-- Pop, allowed only when SP > 0: `SP <- SP - 1; return Stack[SP]`; the entry keeps its value (10_state.md R37). -/
def State.pop (s : State) : Option (Word × State) :=
  match s.sp with
  | ⟨0, _⟩ => none
  | ⟨n + 1, h⟩ => some (s.stack[n]'(Nat.lt_of_succ_lt_succ h), { s with sp := ⟨n, Nat.lt_of_succ_lt h⟩ })

/-! How a step ends -/

/-- `pc_next`: the already-advanced address, modulo 2^16 (40_executor.md R121; log entry 9 for 92_eei_decisions.md D2). -/
def State.pcNext (s : State) : Word := s.pc + 2#16

/-- A defined instruction completed: PC is written last and the outcome is `Normal` (40_executor.md R122, R129). -/
def State.completeAt (s : State) (target : Word) : Result := .next ((s.setPc target).setReport .normal)

/-- Completion with the default PC advance (10_state.md R35). -/
def State.complete (s : State) : Result := s.completeAt s.pcNext

/-- `skip_if(c)`: PC + 4 when the condition holds, else PC + 2, modulo 2^16 (40_executor.md R128). -/
def State.skipIf (s : State) (c : Bool) : Result := s.completeAt (if c then s.pc + 4#16 else s.pcNext)

/-- The step ends `WaitingForKey`: exec_state becomes AwaitingKey and nothing else changes (60_exceptions.md R265). -/
def State.waitForKey (s : State) : Result := .next ((s.setExec .awaitingKey).setReport .waitingForKey)

/-- The step ends `UnknownOpcode(w)`: only PC advances, and the raw word is reported (40_executor.md R125,
60_exceptions.md R262). -/
def State.unknownOpcode (s : State) (w : Word) : Result := .next ((s.setPc s.pcNext).setReport (.unknownOpcode w))

end Sys2Proof.Machine
end

