-- ==== Sys2Proof/Machine/Operands.lean ====
section
/-! DEFINITION. The operand forms: immediates (30_encoding.md R93), the address I + k (43_index_memory.md R206),
the low nibble of a register as a key or digit (45_input_timers.md R240), decimal digits (43_index_memory.md
R203), and the coordinates and rows of a sprite (44_display.md R220, R222). -/
namespace Sys2Proof.Machine

/-- `zext_16(NNN)` (30_encoding.md R93). -/
def zext16 (nnn : Addr) : Word := BitVec.ofNat 16 nnn.toNat

/-- The address operand I as a natural (43_index_memory.md R206); `memByte` and `setByte` reduce it. -/
def State.base (s : State) : Nat := s.i.toNat

/-- `V[X] & 0x0F`: the key index of EX9E and EXA1 and the digit of FX29 (45_input_timers.md R240,
43_index_memory.md R202; log entries 6 and 14 for 92_eei_decisions.md D10 and D12: UNVERIFIED, unsafe). -/
def lowNibble (b : Byte) : RegIdx := b.extractLsb' 0 4

/-- The address of the glyph of a hexadecimal digit, `FONT_BASE + 5 * d` (43_index_memory.md R202). -/
def glyphAddr (d : RegIdx) : Word := BitVec.ofNat 16 (fontBase + fontGlyphBytes * d.toNat)

/-- The hundreds, tens and ones of a byte (43_index_memory.md R203). -/
def decimalDigits (b : Byte) : List Byte :=
  [BitVec.ofNat 8 (b.toNat / 100), BitVec.ofNat 8 (b.toNat / 10 % 10), BitVec.ofNat 8 (b.toNat % 10)]

/-- The target of BNNN, `zext_16(NNN) + V0`, not reduced (41_control_flow.md R147; log entry 9 for
92_eei_decisions.md D2). -/
def indexedTarget (nnn : Addr) (v0 : Byte) : Word := BitVec.ofNat 16 (nnn.toNat + v0.toNat)

/-- `(I + V[X]) mod 0x1000` (43_index_memory.md R201; log entry 13 for 92_eei_decisions.md D9: UNVERIFIED, unsafe). -/
def indexPlus (i : Word) (b : Byte) : Word := BitVec.ofNat 16 ((i.toNat + b.toNat) % 0x1000)

/-- Bit `c` of a sprite row counted from the left: bit 7 is the leftmost pixel (44_display.md R222, R223; log
entry 16 for 92_eei_decisions.md D15: UNVERIFIED, unsafe). -/
def spriteBit (row : Byte) (c : Nat) : Bool := row.getLsbD (7 - c)

/-- The cell at column `x` modulo 64, row `y` modulo 32 (44_display.md R220). -/
def cellAt (d : Display) (x y : Nat) : Bool :=
  (d[y % 32]'(Nat.mod_lt _ (by decide)))[x % 64]'(Nat.mod_lt _ (by decide))

/-- Invert the cell at column `x` modulo 64, row `y` modulo 32 (44_display.md R222). -/
def flipCell (d : Display) (x y : Nat) : Display :=
  d.set (y % 32)
    ((d[y % 32]'(Nat.mod_lt _ (by decide))).set (x % 64) (!cellAt d x y) (Nat.mod_lt _ (by decide)))
    (Nat.mod_lt _ (by decide))

/-- The display while a sprite is drawn, with the collision found so far. -/
abbrev Canvas := Display × Bool

/-- One sprite pixel: a 1 bit inverts its cell and collides when the cell was on; a 0 bit does nothing
(44_display.md R222). -/
def drawPixel (row : Byte) (x0 y : Nat) (p : Canvas) (c : Nat) : Canvas :=
  if spriteBit row c then (flipCell p.1 (x0 + c) y, p.2 || cellAt p.1 (x0 + c) y) else p

/-- One sprite row, its 8 pixels from left to right (44_display.md R222). -/
def drawRow (row : Byte) (x0 y : Nat) (p : Canvas) : Canvas := (List.range 8).foldl (drawPixel row x0 y) p

/-- The first `n` rows of the sprite at I, row r read at I + r and drawn at y0 + r (44_display.md R222). -/
def State.drawRows (s : State) (x0 y0 n : Nat) : Canvas :=
  (List.range n).foldl (fun p r => drawRow (s.memByte (s.base + r)) x0 (y0 + r) p) (s.disp, false)

end Sys2Proof.Machine
end

