-- ==== Sys2Proof/Machine/Alu.lean ====
section
/-! DEFINITION. Loads, arithmetic, logic, shifts and random (42_alu.md). Every one completes with the default PC
advance; operands are read before anything is written (42_alu.md R170). -/
namespace Sys2Proof.Machine

/-- `6XNN` LD Vx, nn (42_alu.md R171). -/
def execLdVxNn (x : RegIdx) (nn : Byte) (s : State) : Result := (s.setV x nn).complete

/-- `7XNN` ADD Vx, nn (42_alu.md R172): no flag. -/
def execAddVxNn (x : RegIdx) (nn : Byte) (s : State) : Result := (s.setV x (sum8 (s.getV x) nn)).complete

/-- `8XY0` LD Vx, Vy (42_alu.md R173). -/
def execLdVxVy (x y : RegIdx) (s : State) : Result := (s.setV x (s.getV y)).complete

/-- `8XY1` OR (42_alu.md R174): VF unchanged unless X = F (log entry 12 for 92_eei_decisions.md D7). -/
def execOr (x y : RegIdx) (s : State) : Result := (s.setV x (s.getV x ||| s.getV y)).complete

/-- `8XY2` AND (42_alu.md R175): VF unchanged unless X = F (log entry 12 for 92_eei_decisions.md D7). -/
def execAnd (x y : RegIdx) (s : State) : Result := (s.setV x (s.getV x &&& s.getV y)).complete

/-- `8XY3` XOR (42_alu.md R176): VF unchanged unless X = F (log entry 12 for 92_eei_decisions.md D7). -/
def execXor (x y : RegIdx) (s : State) : Result := (s.setV x (s.getV x ^^^ s.getV y)).complete

/-- `8XY4` ADD Vx, Vy with carry out (42_alu.md R177). -/
def execAddVxVy (x y : RegIdx) (s : State) : Result :=
  (s.setVWithFlag x (sum8 (s.getV x) (s.getV y)) (flagByte (carry (s.getV x) (s.getV y)))).complete

/-- `8XY5` SUB: VX minus VY (42_alu.md R178). -/
def execSub (x y : RegIdx) (s : State) : Result :=
  (s.setVWithFlag x (diff8 (s.getV x) (s.getV y)) (flagByte (notBorrow (s.getV x) (s.getV y)))).complete

/-- `8XY6` SHR Vx (42_alu.md R179): Y is not read (log entry 12 for 92_eei_decisions.md D8). -/
def execShr (x : RegIdx) (s : State) : Result :=
  (s.setVWithFlag x (shiftRight8 (s.getV x)) (flagByte (shiftedOutLow (s.getV x)))).complete

/-- `8XY7` SUBN: VY minus VX into VX (42_alu.md R180). -/
def execSubn (x y : RegIdx) (s : State) : Result :=
  (s.setVWithFlag x (diff8 (s.getV y) (s.getV x)) (flagByte (notBorrow (s.getV y) (s.getV x)))).complete

/-- `8XYE` SHL Vx (42_alu.md R181): Y is not read (log entry 12 for 92_eei_decisions.md D8). -/
def execShl (x : RegIdx) (s : State) : Result :=
  (s.setVWithFlag x (shiftLeft8 (s.getV x)) (flagByte (shiftedOutHigh (s.getV x)))).complete

/-- `CXNN` RND Vx, nn (42_alu.md R182): the byte is a FREE VALUE (log entry 1), only its masking is known. -/
def execRnd (x : RegIdx) (nn : Byte) (s : State) : Result := (s.nextDraw.setV x (s.drawnByte &&& nn)).complete

end Sys2Proof.Machine
end

