-- ==== Sys2Proof/Machine/Control.lean ====
section
/-! DEFINITION. Control transfer and skips (41_control_flow.md). None of these writes VF, I, memory, the display
or the timers. -/
namespace Sys2Proof.Machine

/-- `00EE` RET (41_control_flow.md R140): the popped entry is the new PC, with no further advance; an empty stack is
fatal (60_exceptions.md R264). -/
def execRet (s : State) : Result :=
  match s.pop with
  | some (target, t) => t.completeAt target
  | none => .fault .stackUnderflow

/-- `1NNN` JP (41_control_flow.md R141). -/
def execJp (nnn : Addr) (s : State) : Result := s.completeAt (zext16 nnn)

/-- `2NNN` CALL (41_control_flow.md R142): pushes the already-advanced address; a full stack is fatal
(60_exceptions.md R263). -/
def execCall (nnn : Addr) (s : State) : Result :=
  match s.push s.pcNext with
  | some t => t.completeAt (zext16 nnn)
  | none => .fault .stackOverflow

/-- `3XNN` SE Vx, nn (41_control_flow.md R143). -/
def execSeVxNn (x : RegIdx) (nn : Byte) (s : State) : Result := s.skipIf (s.getV x == nn)

/-- `4XNN` SNE Vx, nn (41_control_flow.md R144). -/
def execSneVxNn (x : RegIdx) (nn : Byte) (s : State) : Result := s.skipIf (s.getV x != nn)

/-- `5XY0` SE Vx, Vy (41_control_flow.md R145). -/
def execSeVxVy (x y : RegIdx) (s : State) : Result := s.skipIf (s.getV x == s.getV y)

/-- `9XY0` SNE Vx, Vy (41_control_flow.md R146). -/
def execSneVxVy (x y : RegIdx) (s : State) : Result := s.skipIf (s.getV x != s.getV y)

/-- `BNNN` JP V0, nnn (41_control_flow.md R147): always V0, whatever bits 11-8 hold. -/
def execJpV0 (nnn : Addr) (s : State) : Result := s.completeAt (indexedTarget nnn (s.getV 0x0#4))

end Sys2Proof.Machine
end

