-- ==== Sys2Proof/Machine/Index.lean ====
section
/-! DEFINITION. The index register and the memory transfers (43_index_memory.md). I is written by ANNN, FX1E and
FX29 alone; FX33, FX55 and FX65 leave it unchanged (log entry 15 for 92_eei_decisions.md D14). -/
namespace Sys2Proof.Machine

/-- `ANNN` LD I, nnn (43_index_memory.md R200). -/
def execLdINnn (nnn : Addr) (s : State) : Result := (s.setI (zext16 nnn)).complete

/-- `FX1E` ADD I, Vx (43_index_memory.md R201): 12-bit wraparound, VF not written. -/
def execAddIVx (x : RegIdx) (s : State) : Result := (s.setI (indexPlus s.i (s.getV x))).complete

/-- `FX29` LD F, Vx (43_index_memory.md R202). -/
def execLdFVx (x : RegIdx) (s : State) : Result := (s.setI (glyphAddr (lowNibble (s.getV x)))).complete

/-- `FX33` LD B, Vx (43_index_memory.md R203). -/
def execLdBVx (x : RegIdx) (s : State) : Result := (s.storeBytes s.base (decimalDigits (s.getV x))).complete

/-- `FX55` LD [I], Vx (43_index_memory.md R204). -/
def execLdMemVx (x : RegIdx) (s : State) : Result := (s.storeBytes s.base (s.firstRegs x)).complete

/-- `FX65` LD Vx, [I] (43_index_memory.md R205). -/
def execLdVxMem (x : RegIdx) (s : State) : Result := (s.loadRegs x s.base).complete

end Sys2Proof.Machine
end

