-- ==== Sys2Proof/Machine/Input.lean ====
section
/-! DEFINITION. The keypad and timer instructions (45_input_timers.md). The timers are decremented by
`tickTimers` alone, the keypad written by `setKey` alone (Machine/HostOps.lean). -/
namespace Sys2Proof.Machine

/-- `EX9E` SKP Vx (45_input_timers.md R241). -/
def execSkp (x : RegIdx) (s : State) : Result := s.skipIf (s.keyDown (lowNibble (s.getV x)))

/-- `EXA1` SKNP Vx (45_input_timers.md R242). -/
def execSknp (x : RegIdx) (s : State) : Result := s.skipIf (!s.keyDown (lowNibble (s.getV x)))

/-- `FX07` LD Vx, DT (45_input_timers.md R243). -/
def execLdVxDt (x : RegIdx) (s : State) : Result := (s.setV x s.dt).complete

/-- `FX0A` LD Vx, K (45_input_timers.md R244): with no key pressed the step waits (60_exceptions.md R265); else the
smallest pressed index is stored and the executor runs on. -/
def execLdVxK (x : RegIdx) (s : State) : Result :=
  match s.lowestKey with
  | none => s.waitForKey
  | some k => ((s.setV x (BitVec.ofNat 8 k)).setExec .running).complete

/-- `FX15` LD DT, Vx (45_input_timers.md R245). -/
def execLdDtVx (x : RegIdx) (s : State) : Result := (s.setDt (s.getV x)).complete

/-- `FX18` LD ST, Vx (45_input_timers.md R246). -/
def execLdStVx (x : RegIdx) (s : State) : Result := (s.setSt (s.getV x)).complete

end Sys2Proof.Machine
end

