-- ==== Sys2Proof/Machine/Screen.lean ====
section
/-! DEFINITION. The display instructions (44_display.md). -/
namespace Sys2Proof.Machine

/-- The clear display: all 2048 cells off (44_display.md R221). -/
def clearDisplay : Display := Vector.replicate 32 (Vector.replicate 64 false)

/-- `00E0` CLS (44_display.md R221). -/
def execCls (s : State) : Result := (s.setDisp clearDisplay).complete

/-- Draw and report the collision: the display first, then VF (44_display.md R222). -/
def State.paint (s : State) (p : Canvas) : State := (s.setDisp p.1).setV vf (flagByte p.2)

/-- `DXYN` DRW Vx, Vy, n (44_display.md R222): the start is (VX mod 64, VY mod 32) (90_conflicts.md C2); with N = 0
no row is drawn and VF becomes 0 (log entry 16 for 92_eei_decisions.md D16). -/
def execDrw (x y : RegIdx) (n : Nibble) (s : State) : Result :=
  (s.paint (s.drawRows ((s.getV x).toNat % Config.dispW) ((s.getV y).toNat % Config.dispH) n.toNat)).complete

end Sys2Proof.Machine
end

