-- ==== Sys2Proof/Machine/Step.lean ====
section
/-! DEFINITION. One `step()`: fetch, decode, execute (40_executor.md R121). -/
namespace Sys2Proof.Machine

/-- The step algorithm of 40_executor.md R121. A step before the ROM load is refused (10_state.md R45,
70_reset_and_hazards.md R295; log entry 19 for 92_eei_decisions.md D23). -/
def step (s : State) : Host.Outcome State Fault Refusal :=
  if s.loaded then
    match decode s.fetchWord with
    | .instr i => exec i s
    | .unknown w => s.unknownOpcode w
  else .refused .notLoaded

/-- `s` with the table's word stored at PC, high byte first (20_memory.md R65), and the ROM load done, so that the
very next step runs it. It stands for the host's `load_rom` (log entry 8). -/
def State.withFetchWord (s : State) (nbits w : Nat) : State :=
  (s.storeBytes s.pc.toNat [highByte (tableWord nbits w), lowByte (tableWord nbits w)]).setLoaded true

end Sys2Proof.Machine
end

