-- ==== Sys2Proof/Machine/HostOps.lean ====
section
/-! DEFINITION. The host's side of the block, between steps (60_exceptions.md R270, R274): construction, ROM load,
timer tick, key setter, display and sound outputs, the outcome codes, and a schedule of them as a list of events. -/
namespace Sys2Proof.Machine

/-- `construct()` (70_reset_and_hazards.md R290, R296), for every value of the parameter `FONT` (10_state.md R43,
92_eei_decisions.md D11; log entry 5): the state after construction with its 80 glyph bytes at `FONT_BASE`. -/
def construct (glyphs : FontTable := defaultFont) : State := State.reset.storeBytes fontBase glyphs.toList

/-- What the host is told of a `load_rom` (70_reset_and_hazards.md R292, R293). -/
inductive LoadReply where
  /-- The ROM stands in memory and the core is loaded. -/
  | accepted (s : State)
  /-- The ROM is too large: rejected whole, nothing written, still not loaded (70_reset_and_hazards.md R293). -/
  | rejected
  /-- One load per session (70_reset_and_hazards.md R292). -/
  | refused (r : Refusal)
  deriving Repr

/-- `load_rom(bytes)` (70_reset_and_hazards.md R292, R293; log entry 19 for 92_eei_decisions.md D23). -/
def loadRom (bytes : List Byte) (s : State) : LoadReply :=
  if s.loaded then .refused .alreadyLoaded
  else if Config.romMax < bytes.length then .rejected
  else .accepted ((s.storeBytes Config.progBase bytes).setLoaded true)

/-- A timer after one tick: one less unless it is 0 (60_exceptions.md R271). -/
def ticked (b : Byte) : Byte := if b = 0#8 then 0#8 else b - 1#8

/-- `tick_timers()` (60_exceptions.md R271). -/
def tickTimers (s : State) : State := (s.setDt (ticked s.dt)).setSt (ticked s.st)

/-- `set_key(k, pressed)` (60_exceptions.md R272); an index outside the keypad is refused (log entry 20 for
92_eei_decisions.md D28). -/
def setKey (k : Nat) (pressed : Bool) (s : State) : Result :=
  if k < 16 then .next (s.setKeyAt (BitVec.ofNat 4 k) pressed) else .refused .keyOutsideKeypad

/-- `sound_active` (60_exceptions.md R273). -/
def soundActive (s : State) : Bool := s.st != 0#8

/-- The display read: the cell at column `x`, row `y` (44_display.md R226). -/
def displayCell (s : State) (x : Fin 64) (y : Fin 32) : Bool := cellAt s.disp x.val y.val

/-- The five outcomes of a step (60_exceptions.md R260). -/
inductive StepOutcome where
  | normal
  | waitingForKey
  | unknownOpcode (w : Word)
  | stackOverflow
  | stackUnderflow
  deriving DecidableEq, Repr

/-- The numbers the spec gives the outcomes (60_exceptions.md R261; log entry 22 for 92_eei_decisions.md D29). -/
def StepOutcome.code : StepOutcome → Nat
  | .normal => 0
  | .waitingForKey => 1
  | .unknownOpcode _ => 2
  | .stackOverflow => 3
  | .stackUnderflow => 4

/-- The diagnostics of one step: the outcome the host is told, none when the step was refused
(60_exceptions.md R260, R279). -/
def stepOutcome : Result → Option StepOutcome
  | .fault .stackOverflow => some .stackOverflow
  | .fault .stackUnderflow => some .stackUnderflow
  | .refused _ => none
  | .next t =>
    match t.report with
    | .noStep => none
    | .normal => some .normal
    | .waitingForKey => some .waitingForKey
    | .unknownOpcode w => some (.unknownOpcode w)

/-- One operation of the host on the core (60_exceptions.md R270). -/
inductive Event where
  | step
  | tick
  | setKey (k : Nat) (pressed : Bool)
  | loadRom (bytes : List Byte)
  deriving DecidableEq, Repr

/-- The core after one operation. A rejected ROM leaves the core as it was (70_reset_and_hazards.md R293; log
entry 26). -/
def applyEvent (e : Event) (s : State) : Result :=
  match e with
  | .step => Sys2Proof.Machine.step s
  | .tick => .next (tickTimers s)
  | .setKey k pressed => Sys2Proof.Machine.setKey k pressed s
  | .loadRom bytes =>
    match Sys2Proof.Machine.loadRom bytes s with
    | .accepted t => .next t
    | .rejected => .next s
    | .refused r => .refused r

/-- `SCHEDULE`: the host's operations in their total order, none inside a step (60_exceptions.md R274; log entry 20
for 92_eei_decisions.md D24). The run ends at the first fault or refusal. -/
def runSchedule : List Event → State → Result
  | [], s => .next s
  | e :: es, s =>
    match applyEvent e s with
    | .next t => runSchedule es t
    | .fault r => .fault r
    | .refused r => .refused r

/-! The first observation of a run (40_executor.md R130) -/

/-- The launch state: constructed, then one accepted `load_rom` (70_reset_and_hazards.md R294). -/
def launch (glyphs : FontTable) (bytes : List Byte) : Option State :=
  match Sys2Proof.Machine.loadRom bytes (construct glyphs) with
  | .accepted s => some s
  | .rejected => none
  | .refused _ => none

/-- The outcomes with which a step counts in "after exactly k steps": Normal and UnknownOpcode (40_executor.md R130). -/
def StepReport.counts : StepReport → Bool
  | .normal => true
  | .unknownOpcode _ => true
  | .noStep => false
  | .waitingForKey => false

/-- One operation of an observed run: a step must count, and nothing may fault or be refused. -/
def countedEvent (e : Event) (s : State) : Option State :=
  match applyEvent e s with
  | .next t => if e = .step ∧ t.report.counts = false then none else some t
  | .fault _ => none
  | .refused _ => none

/-- A schedule in which every step counts. -/
def runCounted : List Event → State → Option State
  | [], s => some s
  | e :: es, s =>
    match countedEvent e s with
    | some t => runCounted es t
    | none => none

/-- Observation 1 of 40_executor.md R130, from the state `s`: the state after exactly `k` steps, each with outcome
Normal or UnknownOpcode, under the stated schedule of host operations between them. A step that waits for a key or is
fatal leaves no such observation (log entry 30). -/
def afterSteps (k : Nat) (es : List Event) (s : State) : Option State :=
  if es.count .step = k then runCounted es s else none

/-- Observation 1 of a program: from the launch state of its ROM. -/
def observeAfter (glyphs : FontTable) (bytes : List Byte) (k : Nat) (es : List Event) : Option State :=
  (launch glyphs bytes).bind (afterSteps k es)

end Sys2Proof.Machine
end

