-- ==== Sys2Proof/Safety.lean ====
section
/-! DEFINITION. The terms claims are stated in: the parts of the state and what an instruction may write, how an
instruction completes, the invariant of the machine, the final state, and the cells a sprite covers. -/
namespace Sys2Proof.Machine

/-- The pieces of state (10_state.md R30), with the model's own two. -/
inductive Part where
  | mem | v | i | pc | stack | sp | dt | st | disp | key | exec | loaded | report | draws
  deriving DecidableEq, Repr

/-- A part of the state reads the same before and after; memory is read byte by byte at every address. -/
def Agree (s t : State) : Part → Prop
  | .mem => ∀ a : Nat, t.memByte a = s.memByte a
  | .v => ∀ k : RegIdx, t.getV k = s.getV k
  | .i => t.i = s.i
  | .pc => t.pc = s.pc
  | .stack => t.stack = s.stack
  | .sp => t.sp = s.sp
  | .dt => t.dt = s.dt
  | .st => t.st = s.st
  | .disp => t.disp = s.disp
  | .key => t.key = s.key
  | .exec => t.execState = s.execState
  | .loaded => t.loaded = s.loaded
  | .report => t.report = s.report
  | .draws => t.draws = s.draws

/-- Everything but the named parts is unchanged. -/
def SameBut (ps : List Part) (s t : State) : Prop := ∀ p : Part, p ∉ ps → Agree s t p

/-- The instruction completes with outcome `Normal` (40_executor.md R129): it answers a next state, in which only
PC and the named parts may differ, and of which `post` holds. -/
def Completes (i : Instr) (s : State) (ps : List Part) (post : State → Prop) : Prop :=
  ∃ t, exec i s = .next t ∧ t.report = .normal ∧ SameBut (.pc :: .report :: ps) s t ∧ post t

/-- PC is advanced by `n`, modulo 2^16 (40_executor.md R121, R122). -/
def Advanced (n : Nat) (s t : State) : Prop := t.pc.toNat = (s.pc.toNat + n) % 2 ^ 16

/-- Every register but the named ones is unchanged. -/
def RegsBut (xs : List RegIdx) (s t : State) : Prop := ∀ k : RegIdx, k ∉ xs → t.getV k = s.getV k

/-- Which parts an instruction writes besides PC and the report: the writers named by 10_state.md R31, R36, R37,
R39, R40, R41, R44 and 20_memory.md R60. -/
def writes : Instr → List Part
  | .cls => [.disp]
  | .ret => [.sp]
  | .call _ => [.stack, .sp]
  | .jp _ | .jpV0 _ | .seVxNn _ _ | .sneVxNn _ _ | .seVxVy _ _ | .sneVxVy _ _ | .skp _ | .sknp _ => []
  | .ldVxNn _ _ | .addVxNn _ _ | .ldVxVy _ _ | .orVxVy _ _ | .andVxVy _ _ | .xorVxVy _ _ | .addVxVy _ _
  | .subVxVy _ _ | .shrVx _ _ | .subnVxVy _ _ | .shlVx _ _ | .ldVxDt _ | .ldVxMem _ => [.v]
  | .rnd _ _ => [.v, .draws]
  | .drw _ _ _ => [.v, .disp]
  | .ldVxK _ => [.v, .exec]
  | .ldINnn _ | .addIVx _ | .ldFVx _ => [.i]
  | .ldDtVx _ => [.dt]
  | .ldStVx _ => [.st]
  | .ldBVx _ | .ldMemVx _ => [.mem]

/-- Which general registers an instruction writes (10_state.md R31, R32): X for the loads and the arithmetic, VF
besides for the flag writers, V0 to VX for FX65. -/
def writesReg : Instr → RegIdx → Bool
  | .ldVxNn x _, k | .addVxNn x _, k | .ldVxVy x _, k | .orVxVy x _, k | .andVxVy x _, k | .xorVxVy x _, k
  | .rnd x _, k | .ldVxDt x, k | .ldVxK x, k => k == x
  | .addVxVy x _, k | .subVxVy x _, k | .shrVx x _, k | .subnVxVy x _, k | .shlVx x _, k => k == x || k == vf
  | .drw _ _ _, k => k == vf
  | .ldVxMem x, k => decide (k.toNat ≤ x.toNat)
  | .cls, _ | .ret, _ | .jp _, _ | .call _, _ | .seVxNn _ _, _ | .sneVxNn _ _, _ | .seVxVy _ _, _ | .sneVxVy _ _, _
  | .ldINnn _, _ | .jpV0 _, _ | .skp _, _ | .sknp _, _ | .ldDtVx _, _ | .ldStVx _, _ | .addIVx _, _ | .ldFVx _, _
  | .ldBVx _, _ | .ldMemVx _, _ => false

/-- The instructions whose rule gives PC another value than the default advance (10_state.md R35). -/
def steersPc : Instr → Bool
  | .ret | .jp _ | .call _ | .jpV0 _ | .seVxNn _ _ | .sneVxNn _ _ | .seVxVy _ _ | .sneVxVy _ _ | .skp _ | .sknp _
  | .ldVxK _ => true
  | .cls | .ldVxNn _ _ | .addVxNn _ _ | .ldVxVy _ _ | .orVxVy _ _ | .andVxVy _ _ | .xorVxVy _ _ | .addVxVy _ _
  | .subVxVy _ _ | .shrVx _ _ | .subnVxVy _ _ | .shlVx _ _ | .ldINnn _ | .rnd _ _ | .drw _ _ _ | .ldVxDt _
  | .ldDtVx _ | .ldStVx _ | .addIVx _ | .ldFVx _ | .ldBVx _ | .ldMemVx _ | .ldVxMem _ => false

/-- The instructions that write VF as the flag (10_state.md R32). -/
def writesFlag : Instr → Bool
  | .addVxVy _ _ | .subVxVy _ _ | .shrVx _ _ | .subnVxVy _ _ | .shlVx _ _ | .drw _ _ _ => true
  | .cls | .ret | .jp _ | .call _ | .seVxNn _ _ | .sneVxNn _ _ | .seVxVy _ _ | .ldVxNn _ _ | .addVxNn _ _
  | .ldVxVy _ _ | .orVxVy _ _ | .andVxVy _ _ | .xorVxVy _ _ | .sneVxVy _ _ | .ldINnn _ | .jpV0 _ | .rnd _ _
  | .skp _ | .sknp _ | .ldVxDt _ | .ldVxK _ | .ldDtVx _ | .ldStVx _ | .addIVx _ | .ldFVx _ | .ldBVx _
  | .ldMemVx _ | .ldVxMem _ => false

/-- The invariant of the machine: what holds after construction and is kept by every step and every operation of
the host. It rules out the states no run reaches. -/
structure Invariant (s : State) : Prop where
  /-- Memory is in its canonical form. -/
  memWf : Memory.wf s.mem = true
  /-- Bits 15 to 12 of I are 0 (10_state.md R36). -/
  indexLow : s.i.toNat ≤ 0xFFF
  /-- A core that awaits a key is loaded, and the word at PC is the FX0A that entered the wait (40_executor.md R124). -/
  awaiting : s.execState = .awaitingKey → s.loaded = true ∧ ∃ x, decode s.fetchWord = .instr (.ldVxK x)
  /-- It awaits a key exactly when its last step reported so (10_state.md R44). -/
  reported : s.execState = .awaitingKey ↔ s.report = .waitingForKey

/-- The final state of a run: loaded, PC at most 0xFFF, and the word at PC a jump to its own address
(40_executor.md R130). -/
def Final (s : State) : Prop :=
  s.loaded = true ∧ s.pc.toNat ≤ 0xFFF ∧ s.fetchWord.toNat = 0x1000 + s.pc.toNat

/-- Observation 2 of 40_executor.md R130: the schedule brings the program from its launch state to the final state
`t`, with no fatal outcome on the way. -/
def ReachesFinal (glyphs : FontTable) (bytes : List Byte) (es : List Event) (t : State) : Prop :=
  ∃ s, launch glyphs bytes = some s ∧ runSchedule es s = .next t ∧ Final t

/-- Some 1 bit of the sprite of `n` rows at I, drawn from column `x0` and row `y0`, falls on the cell at column
`x`, row `y`: bit 7 - c of row r falls on column x0 + c modulo 64, row y0 + r modulo 32 (44_display.md R222). -/
def Covers (s : State) (x0 y0 n x y : Nat) : Prop :=
  ∃ r c : Nat, r < n ∧ c < 8 ∧ (s.memByte (s.i.toNat + r)).toNat / 2 ^ (7 - c) % 2 = 1
    ∧ (x0 + c) % 64 = x ∧ (y0 + r) % 32 = y

end Sys2Proof.Machine
end

