-- ==== Sys2Proof/Certificates/Slice0/Obligations.lean ====
section
/-! DEFINITION. The statements for the provers, each from the rules of spec/ its docstring names. Statements that
rest on a decision the spec marks as its own (92_eei_decisions.md) say so. -/
open Sys2Proof Sys2Proof.Machine

/-! Encoding, decoding, fetching -/

/-- Decode and encode agree on every instruction, with every operand value (30_encoding.md sections 2 to 4). -/
def Obligations.EncodedInstructionDecodesToItself : Prop := ∀ i : Instr, decode (encode i) = .instr i

/-- No bit of a word is dropped: a word that decodes is the encoding of what it decodes to. -/
def Obligations.DecodedWordIsItsEncoding : Prop := ∀ (w : Word) (i : Instr), decode w = .instr i → encode i = w

/-- 30_encoding.md R96: a word is the instruction of a row exactly when `w & mask == match`, with the word's own
operand fields in place. -/
def Obligations.OpcodeMapRowsAreDecoded : Prop :=
  ∀ (w : Word) (r : OpcodeRow), r ∈ opcodeMap →
    (w &&& r.mask = r.bits ↔ ∃ i, decode w = .instr i ∧ i.mnemonic = r.mnemonic ∧ encode i = w)

/-- 30_encoding.md R98 (derived by the spec from R95; the strictness is its decision D4): the unknown words are
exactly the six classes, with the counts the rule gives, and the decoder gives the word back unchanged. -/
def Obligations.UnknownSpaceIsExactly : Prop :=
  (∀ w : Word, (∃ u, decode w = .unknown u) ↔ unknownWord w = true)
    ∧ (∀ w u : Word, decode w = .unknown u → u = w)
    ∧ (∀ p ∈ [(0x0, 4094), (0x5, 3840), (0x8, 1792), (0x9, 3840), (0xE, 4064), (0xF, 3952)],
        ((List.range 4096).filter fun n => unknownWord (BitVec.ofNat 16 (p.1 * 4096 + n))).length = p.2)

/-- A few words of 95_test_vectors.md L2.2 and of the rules' examples, written out by hand. -/
def Obligations.SampleWordsDecode : Prop :=
  decode 0x00E0#16 = .instr .cls ∧ decode 0x1ABC#16 = .instr (.jp 0xABC#12)
    ∧ decode 0x5120#16 = .instr (.seVxVy 0x1#4 0x2#4) ∧ decode 0x5121#16 = .unknown 0x5121#16
    ∧ decode 0x8ABE#16 = .instr (.shlVx 0xA#4 0xB#4) ∧ decode 0xD12F#16 = .instr (.drw 0x1#4 0x2#4 0xF#4)
    ∧ decode 0xE39E#16 = .instr (.skp 0x3#4) ∧ decode 0xF30A#16 = .instr (.ldVxK 0x3#4)
    ∧ decode 0xFF65#16 = .instr (.ldVxMem 0xF#4) ∧ decode 0x0000#16 = .unknown 0x0000#16

/-- 30_encoding.md R90: the word at PC is two bytes, the first the high byte, both addresses modulo 4096, whatever
PC is (an odd PC among them). -/
def Obligations.FetchReadsTwoBytesBigEndian : Prop :=
  ∀ s : State, s.fetchWord.toNat
    = (s.memByte (s.pc.toNat % 4096)).toNat * 256 + (s.memByte ((s.pc.toNat + 1) % 4096)).toNat

/-! The step -/

/-- 40_executor.md section 1: a loaded core whose word at PC decodes runs exactly that instruction; the step adds
nothing around it. -/
def Obligations.StepRunsDecodedInstruction : Prop :=
  ∀ (s : State) (i : Instr), s.loaded = true → decode s.fetchWord = .instr i → step s = exec i s

/-- 40_executor.md R125, 60_exceptions.md R262: a word that decodes to `Unknown(w)` only advances PC, and its raw 16
bits, those at PC, are reported. -/
def Obligations.UnknownWordOnlyAdvancesPc : Prop :=
  ∀ (s : State) (w : Word), s.loaded = true → decode s.fetchWord = .unknown w →
    w = s.fetchWord ∧
      ∃ t, step s = .next t ∧ t.report = .unknownOpcode w ∧ SameBut [.pc, .report] s t ∧ Advanced 2 s t

/-- A step before the ROM load is refused: the spec's own decision D23 ("`step()` while not loaded is refused"). -/
def Obligations.StepBeforeLoadIsRefused : Prop :=
  ∀ s : State, s.loaded = false → step s = .refused .notLoaded ∧ stepOutcome (step s) = none

/-- 60_exceptions.md section 1: on a loaded core every step has exactly one outcome, and each of the four outcomes
other than Normal arises exactly under its cause. -/
def Obligations.StepOutcomesHaveTheirCauses : Prop :=
  ∀ s : State, s.loaded = true →
    (stepOutcome (step s) = some .stackOverflow ↔ s.fetchWord.toNat / 0x1000 = 0x2 ∧ s.sp.val = 16)
    ∧ (stepOutcome (step s) = some .stackUnderflow ↔ s.fetchWord.toNat = 0x00EE ∧ s.sp.val = 0)
    ∧ (∀ w, stepOutcome (step s) = some (.unknownOpcode w) ↔ unknownWord s.fetchWord = true ∧ w = s.fetchWord)
    ∧ (stepOutcome (step s) = some .waitingForKey ↔
        s.fetchWord.toNat / 0x1000 = 0xF ∧ s.fetchWord.toNat % 0x100 = 0x0A ∧ ∀ k, s.keyDown k = false)
    ∧ stepOutcome (step s) ≠ none

/-! Reset and the invariant -/

/-- 70_reset_and_hazards.md section 1: execution starts at 0x200, the executor in state Running. That exec_state
starts as Running is also the spec's own decision D22 ("exec_state = Running"). -/
def Obligations.ResetStartsAtProgramBase : Prop :=
  State.reset.pc.toNat = 0x200 ∧ State.reset.execState = .running

/-- 10_state.md section 11: memory is zero but for the font, and every register, timer, stack entry, key and
display cell is zero. The font's place and bytes (D10, D11) and the values of I, Stack, Key and exec_state (D22) are
the spec's own decisions; `report` and `draws` are not stated. -/
def Obligations.ResetClearsTheState : Prop :=
  (∀ a : Nat, State.reset.memByte a
      = if 0x050 ≤ a % 4096 ∧ a % 4096 < 0x0A0 then font.getD (a % 4096 - 0x050) 0x00#8 else 0x00#8)
    ∧ (∀ x, State.reset.getV x = 0x00#8) ∧ State.reset.i = 0x0000#16
    ∧ (∀ (k : Nat) (h : k < 16), State.reset.stack[k] = 0x0000#16) ∧ State.reset.sp.val = 0
    ∧ State.reset.dt = 0x00#8 ∧ State.reset.st = 0x00#8
    ∧ (∀ x y, displayCell State.reset x y = false) ∧ (∀ k, State.reset.keyDown k = false)
    ∧ State.reset.loaded = false

/-- The invariant holds after construction. -/
def Obligations.ResetMeetsInvariant : Prop := Invariant State.reset

/-- 10_state.md section 8 (the spec's own decision D11, log entry 5: "exposed as parameter `FONT` with that
default"): whatever 80 bytes `FONT` holds, construction puts them at 0x050 (decision D10, log entry 6), zero
elsewhere, changes nothing else and meets the invariant; with the default table it is the reset state. -/
def Obligations.ConstructTakesAnyFont : Prop :=
  (∀ glyphs : FontTable,
    (∀ a : Nat, (construct glyphs).memByte a
        = if h : 0x050 ≤ a % 4096 ∧ a % 4096 < 0x0A0 then glyphs[a % 4096 - 0x050] else 0x00#8)
      ∧ SameBut [.mem] State.reset (construct glyphs) ∧ Invariant (construct glyphs))
    ∧ construct = State.reset

/-- Every step keeps the invariant: memory canonical, I below 0x1000 (10_state.md section 4), and the core awaits a
key only at the FX0A that entered the wait (40_executor.md section 2). -/
def Obligations.StepKeepsInvariant : Prop := ∀ s t : State, Invariant s → step s = .next t → Invariant t

/-- Every schedule of steps, ticks, key changes and ROM loads keeps the invariant (60_exceptions.md section 3,
the open parameter SCHEDULE). -/
def Obligations.EveryScheduleKeepsInvariant : Prop :=
  ∀ (es : List Event) (s t : State), Invariant s → runSchedule es s = .next t → Invariant t

/-- 40_executor.md section 2 (derived by the spec): from AwaitingKey a step either waits again and changes nothing,
or completes the FX0A. -/
def Obligations.AwaitingCoreWaitsOrCompletes : Prop :=
  ∀ s : State, Invariant s → s.execState = .awaitingKey →
    ((∀ k, s.keyDown k = false) → step s = .next s)
    ∧ ((∃ k, s.keyDown k = true) →
        ∃ t, step s = .next t ∧ t.execState = .running ∧ t.report = .normal ∧ Advanced 2 s t)

/-! Control transfer and skips -/

/-- 41_control_flow.md R140: RET takes PC from the stack, with no further advance; an empty stack is the fatal
StackUnderflow. -/
def Obligations.ReturnPopsTheStack : Prop :=
  decode 0x00EE#16 = .instr .ret
    ∧ (∀ (s : State) (k : Nat) (h : k < 16), s.sp.val = k + 1 →
        Completes .ret s [.sp] fun t => t.sp.val = k ∧ t.pc = s.stack[k])
    ∧ (∀ s : State, s.sp.val = 0 → exec .ret s = .fault .stackUnderflow)

/-- 41_control_flow.md R141: JP sets PC to NNN. -/
def Obligations.JumpSetsPc : Prop :=
  ∀ (nnn : Addr) (s : State), decode (0x1#4 ++ nnn) = .instr (.jp nnn)
    ∧ Completes (.jp nnn) s [] fun t => t.pc.toNat = nnn.toNat

/-- 41_control_flow.md R142: CALL pushes the already-advanced address and jumps; a full stack is the fatal
StackOverflow. -/
def Obligations.CallPushesReturnAddress : Prop :=
  ∀ (nnn : Addr) (s : State), decode (0x2#4 ++ nnn) = .instr (.call nnn)
    ∧ (∀ (k : Nat) (h : k < 16), s.sp.val = k →
        Completes (.call nnn) s [.stack, .sp] fun t =>
          t.stack[k].toNat = (s.pc.toNat + 2) % 2 ^ 16 ∧ t.sp.val = k + 1 ∧ t.pc.toNat = nnn.toNat
            ∧ ∀ (j : Nat) (hj : j < 16), j ≠ k → t.stack[j] = s.stack[j])
    ∧ (s.sp.val = 16 → exec (.call nnn) s = .fault .stackOverflow)

/-- 41_control_flow.md R143, R144: the skips on an immediate. -/
def Obligations.SkipOnImmediate : Prop :=
  ∀ (x : RegIdx) (nn : Byte) (s : State),
    decode (0x3#4 ++ x ++ nn) = .instr (.seVxNn x nn) ∧ decode (0x4#4 ++ x ++ nn) = .instr (.sneVxNn x nn)
    ∧ (Completes (.seVxNn x nn) s [] fun t => Advanced (if s.getV x = nn then 4 else 2) s t)
    ∧ (Completes (.sneVxNn x nn) s [] fun t => Advanced (if s.getV x = nn then 2 else 4) s t)

/-- 41_control_flow.md R145, R146: the skips on two registers; any low nibble but 0 is an unknown word. -/
def Obligations.SkipOnRegisters : Prop :=
  ∀ (x y : RegIdx) (s : State),
    decode (0x5#4 ++ x ++ y ++ 0x0#4) = .instr (.seVxVy x y) ∧ decode (0x9#4 ++ x ++ y ++ 0x0#4) = .instr (.sneVxVy x y)
    ∧ (∀ n : Nibble, n ≠ 0x0#4 → decode (0x5#4 ++ x ++ y ++ n) = .unknown (0x5#4 ++ x ++ y ++ n)
        ∧ decode (0x9#4 ++ x ++ y ++ n) = .unknown (0x9#4 ++ x ++ y ++ n))
    ∧ (Completes (.seVxVy x y) s [] fun t => Advanced (if s.getV x = s.getV y then 4 else 2) s t)
    ∧ (Completes (.sneVxVy x y) s [] fun t => Advanced (if s.getV x = s.getV y then 2 else 4) s t)

/-- 41_control_flow.md section 3: BNNN sets PC to NNN + V0. That the sum is held unreduced is the spec's own
decision D2 ("BNNN stores NNN + V0 unreduced"). -/
def Obligations.IndexedJumpAddsV0 : Prop :=
  ∀ (nnn : Addr) (s : State), decode (0xB#4 ++ nnn) = .instr (.jpV0 nnn)
    ∧ Completes (.jpV0 nnn) s [] fun t => t.pc.toNat = nnn.toNat + (s.getV 0x0#4).toNat

/-- 41_control_flow.md section 4 (derived by the spec): a RET in any later state with the same live stack returns
to the instruction after the CALL, and the depth is what it was before the call. -/
def Obligations.ReturnUndoesCall : Prop :=
  ∀ (nnn : Addr) (s : State) (k : Nat) (h : k < 16), s.sp.val = k →
    ∃ t, exec (.call nnn) s = .next t ∧
      ∀ u : State, u.sp = t.sp → u.stack[k] = t.stack[k] →
        ∃ r, exec .ret u = .next r ∧ Advanced 2 s r ∧ r.sp = s.sp

/-- 41_control_flow.md section 4: no instruction overwrites a live stack entry. -/
def Obligations.LiveStackEntriesSurvive : Prop :=
  ∀ (i : Instr) (s t : State), exec i s = .next t →
    ∀ (j : Nat) (hj : j < 16), j < s.sp.val → t.stack[j] = s.stack[j]

/-- 40_executor.md section 4 (the spec's own decision D26): from a final state a step changes no state element;
only the model's own report says Normal. -/
def Obligations.FinalStateIsFixed : Prop :=
  ∀ s : State, Final s → ∃ t, step s = .next t ∧ t.report = .normal ∧ SameBut [.report] s t ∧ Final t

/-- 40_executor.md section 4, observation 1 (the spec's own decision D26, log entry 28): the state after exactly k
steps is there exactly when the schedule holds k steps, runs to that state with no fault or refusal, and every step of
it reports Normal or UnknownOpcode. That a step which waits for a key leaves no such observation is the model's
reading (log entry 30, DEDUCED). -/
def Obligations.StepCountObservationIsExact : Prop :=
  ∀ (k : Nat) (es : List Event) (s t : State), afterSteps k es s = some t ↔
    es.count .step = k ∧ runSchedule es s = .next t
      ∧ ∀ (ps qs : List Event) (u : State), es = ps ++ .step :: qs → runSchedule (ps ++ [.step]) s = .next u →
          u.report = .normal ∨ ∃ w, u.report = .unknownOpcode w

/-! Loads, arithmetic, logic, shifts, random -/

/-- 42_alu.md R171: LD Vx, nn. -/
def Obligations.LoadImmediateSetsRegister : Prop :=
  ∀ (x : RegIdx) (nn : Byte) (s : State), decode (0x6#4 ++ x ++ nn) = .instr (.ldVxNn x nn)
    ∧ Completes (.ldVxNn x nn) s [.v] fun t => t.getV x = nn ∧ RegsBut [x] s t ∧ Advanced 2 s t

/-- 42_alu.md R172: ADD Vx, nn wraps at 8 bits and sets no flag. -/
def Obligations.AddImmediateWrapsWithoutFlag : Prop :=
  ∀ (x : RegIdx) (nn : Byte) (s : State), decode (0x7#4 ++ x ++ nn) = .instr (.addVxNn x nn)
    ∧ Completes (.addVxNn x nn) s [.v] fun t =>
        (t.getV x).toNat = ((s.getV x).toNat + nn.toNat) % 256 ∧ RegsBut [x] s t ∧ Advanced 2 s t

/-- 42_alu.md R173: LD Vx, Vy. -/
def Obligations.CopyRegister : Prop :=
  ∀ (x y : RegIdx) (s : State), decode (0x8#4 ++ x ++ y ++ 0x0#4) = .instr (.ldVxVy x y)
    ∧ Completes (.ldVxVy x y) s [.v] fun t => t.getV x = s.getV y ∧ RegsBut [x] s t ∧ Advanced 2 s t

/-- 42_alu.md section 3: OR, AND and XOR, bit by bit. That VF is unchanged unless X = F is the spec's own decision
D7 ("VF unchanged (unless X = 0xF)"). -/
def Obligations.LogicIsBitwiseWithoutFlag : Prop :=
  ∀ (x y : RegIdx) (s : State),
    decode (0x8#4 ++ x ++ y ++ 0x1#4) = .instr (.orVxVy x y) ∧ decode (0x8#4 ++ x ++ y ++ 0x2#4) = .instr (.andVxVy x y)
    ∧ decode (0x8#4 ++ x ++ y ++ 0x3#4) = .instr (.xorVxVy x y)
    ∧ (Completes (.orVxVy x y) s [.v] fun t => RegsBut [x] s t ∧ Advanced 2 s t
        ∧ ∀ b, (t.getV x).getLsbD b = ((s.getV x).getLsbD b || (s.getV y).getLsbD b))
    ∧ (Completes (.andVxVy x y) s [.v] fun t => RegsBut [x] s t ∧ Advanced 2 s t
        ∧ ∀ b, (t.getV x).getLsbD b = ((s.getV x).getLsbD b && (s.getV y).getLsbD b))
    ∧ (Completes (.xorVxVy x y) s [.v] fun t => RegsBut [x] s t ∧ Advanced 2 s t
        ∧ ∀ b, (t.getV x).getLsbD b = ((s.getV x).getLsbD b ^^ (s.getV y).getLsbD b))

/-- 42_alu.md section 4: the sum modulo 256, VF 1 exactly when the exact sum is at least 256; with Y = F the old VF
is added. That with X = F register VF holds the flag is the spec's own decision D6 ("VF holds the flag"). -/
def Obligations.AddSetsCarry : Prop :=
  ∀ (x y : RegIdx) (s : State), decode (0x8#4 ++ x ++ y ++ 0x4#4) = .instr (.addVxVy x y)
    ∧ Completes (.addVxVy x y) s [.v] fun t =>
        (x ≠ vf → (t.getV x).toNat = ((s.getV x).toNat + (s.getV y).toNat) % 256)
        ∧ (t.getV vf).toNat = (if 256 ≤ (s.getV x).toNat + (s.getV y).toNat then 1 else 0)
        ∧ RegsBut [x, vf] s t ∧ Advanced 2 s t

/-- 42_alu.md section 4: VX minus VY modulo 256, VF 1 exactly when VX ≥ VY before the subtraction. That with X = F
register VF holds the flag is the spec's own decision D6 ("VF holds the flag"). -/
def Obligations.SubtractSetsNotBorrow : Prop :=
  ∀ (x y : RegIdx) (s : State), decode (0x8#4 ++ x ++ y ++ 0x5#4) = .instr (.subVxVy x y)
    ∧ Completes (.subVxVy x y) s [.v] fun t =>
        (x ≠ vf → (t.getV x).toNat = ((s.getV x).toNat + 256 - (s.getV y).toNat) % 256)
        ∧ (t.getV vf).toNat = (if (s.getV y).toNat ≤ (s.getV x).toNat then 1 else 0)
        ∧ RegsBut [x, vf] s t ∧ Advanced 2 s t

/-- 42_alu.md section 4: VY minus VX into VX modulo 256, VF 1 exactly when VY ≥ VX before the subtraction. That with
X = F register VF holds the flag is the spec's own decision D6 ("VF holds the flag"). -/
def Obligations.ReverseSubtractSetsNotBorrow : Prop :=
  ∀ (x y : RegIdx) (s : State), decode (0x8#4 ++ x ++ y ++ 0x7#4) = .instr (.subnVxVy x y)
    ∧ Completes (.subnVxVy x y) s [.v] fun t =>
        (x ≠ vf → (t.getV x).toNat = ((s.getV y).toNat + 256 - (s.getV x).toNat) % 256)
        ∧ (t.getV vf).toNat = (if (s.getV x).toNat ≤ (s.getV y).toNat then 1 else 0)
        ∧ RegsBut [x, vf] s t ∧ Advanced 2 s t

/-- 42_alu.md section 4: the shifts of VX by one, VF the bit shifted out. That VX is shifted and Y ignored is the
spec's own decision D8 ("shift VX, Y ignored"), VF last with X = F its decision D6. -/
def Obligations.ShiftsMoveOutTheFlag : Prop :=
  ∀ (x y : RegIdx) (s : State),
    decode (0x8#4 ++ x ++ y ++ 0x6#4) = .instr (.shrVx x y) ∧ decode (0x8#4 ++ x ++ y ++ 0xE#4) = .instr (.shlVx x y)
    ∧ (Completes (.shrVx x y) s [.v] fun t =>
        (x ≠ vf → (t.getV x).toNat = (s.getV x).toNat / 2) ∧ (t.getV vf).toNat = (s.getV x).toNat % 2
        ∧ RegsBut [x, vf] s t ∧ Advanced 2 s t)
    ∧ (Completes (.shlVx x y) s [.v] fun t =>
        (x ≠ vf → (t.getV x).toNat = (s.getV x).toNat * 2 % 256) ∧ (t.getV vf).toNat = (s.getV x).toNat / 128
        ∧ RegsBut [x, vf] s t ∧ Advanced 2 s t)

/-- 42_alu.md section 5: some byte ANDed with NN, the free byte of the n-th draw (log entry 1; the spec's decision
D17: "the model takes each byte as a free draw under no law"). Every bit NN clears is 0. -/
def Obligations.RandomIsMaskedFreeByte : Prop :=
  ∀ (x : RegIdx) (nn : Byte) (s : State), decode (0xC#4 ++ x ++ nn) = .instr (.rnd x nn)
    ∧ Completes (.rnd x nn) s [.v, .draws] fun t =>
        t.getV x = Config.randomByte s.draws &&& nn ∧ (∀ b, nn.getLsbD b = false → (t.getV x).getLsbD b = false)
        ∧ t.draws = s.draws + 1 ∧ RegsBut [x] s t ∧ Advanced 2 s t

/-- 42_alu.md section 1 and 10_state.md section 2: after any instruction that writes VF as the flag, VF is 0 or 1,
whatever X is (X = F among them, the spec's own decision D6). -/
def Obligations.FlagIsZeroOrOne : Prop :=
  ∀ (i : Instr) (s : State), writesFlag i = true →
    ∃ t, exec i s = .next t ∧ (t.getV vf = 0#8 ∨ t.getV vf = 1#8)

/-! Index register and memory transfers -/

/-- 43_index_memory.md R200: LD I, nnn. -/
def Obligations.LoadIndexSetsI : Prop :=
  ∀ (nnn : Addr) (s : State), decode (0xA#4 ++ nnn) = .instr (.ldINnn nnn)
    ∧ Completes (.ldINnn nnn) s [.i] fun t => t.i.toNat = nnn.toNat ∧ Advanced 2 s t

/-- 43_index_memory.md section 1: ADD I, Vx wraps at 12 bits and leaves VF: the spec's own decision D9 ("I ← (I +
VX) mod 0x1000, VF unchanged"). -/
def Obligations.AddToIndexWrapsAt12Bits : Prop :=
  ∀ (x : RegIdx) (s : State), decode (0xF#4 ++ x ++ 0x1E#8) = .instr (.addIVx x)
    ∧ Completes (.addIVx x) s [.i] fun t =>
        t.i.toNat = (s.i.toNat + (s.getV x).toNat) % 0x1000 ∧ Advanced 2 s t

/-- 43_index_memory.md section 1: LD F, Vx. The base 0x050 and the low nibble of VX are the spec's own decision D10
("FX29 uses VX & 0x0F"). -/
def Obligations.FontAddressOfLowNibble : Prop :=
  ∀ (x : RegIdx) (s : State), decode (0xF#4 ++ x ++ 0x29#8) = .instr (.ldFVx x)
    ∧ Completes (.ldFVx x) s [.i] fun t => t.i.toNat = 0x050 + 5 * ((s.getV x).toNat % 16) ∧ Advanced 2 s t

/-- 43_index_memory.md R203: the three decimal digits of VX at I, I + 1, I + 2 modulo 4096; every other byte and I
unchanged. -/
def Obligations.DecimalDigitsAreStored : Prop :=
  ∀ (x : RegIdx) (s : State), decode (0xF#4 ++ x ++ 0x33#8) = .instr (.ldBVx x)
    ∧ Completes (.ldBVx x) s [.mem] fun t =>
        (t.memByte s.i.toNat).toNat = (s.getV x).toNat / 100
        ∧ (t.memByte (s.i.toNat + 1)).toNat = (s.getV x).toNat / 10 % 10
        ∧ (t.memByte (s.i.toNat + 2)).toNat = (s.getV x).toNat % 10
        ∧ (∀ a : Nat, (∀ k < 3, a % 4096 ≠ (s.i.toNat + k) % 4096) → t.memByte a = s.memByte a)
        ∧ Advanced 2 s t

/-- 43_index_memory.md section 2: V0 to VX stored from I on, modulo 4096; every other byte unchanged. That I keeps
its value is the spec's own decision D14 ("I unchanged"). -/
def Obligations.RegistersAreStored : Prop :=
  ∀ (x : RegIdx) (s : State), decode (0xF#4 ++ x ++ 0x55#8) = .instr (.ldMemVx x)
    ∧ Completes (.ldMemVx x) s [.mem] fun t =>
        (∀ k : RegIdx, k.toNat ≤ x.toNat → t.memByte (s.i.toNat + k.toNat) = s.getV k)
        ∧ (∀ a : Nat, (∀ k ≤ x.toNat, a % 4096 ≠ (s.i.toNat + k) % 4096) → t.memByte a = s.memByte a)
        ∧ Advanced 2 s t

/-- 43_index_memory.md section 2: V0 to VX loaded from I on, modulo 4096; the registers above X unchanged. That I
keeps its value is the spec's own decision D14 ("I unchanged"). -/
def Obligations.RegistersAreLoaded : Prop :=
  ∀ (x : RegIdx) (s : State), decode (0xF#4 ++ x ++ 0x65#8) = .instr (.ldVxMem x)
    ∧ Completes (.ldVxMem x) s [.v] fun t =>
        (∀ k : RegIdx, t.getV k = if k.toNat ≤ x.toNat then s.memByte ((s.i.toNat + k.toNat) % 4096) else s.getV k)
        ∧ Advanced 2 s t

/-- What FX55 stored, FX65 with the same X and I loads back into V0 to VX, whatever the registers hold by then
(43_index_memory.md section 2, 20_memory.md section 4). -/
def Obligations.StoredRegistersLoadBack : Prop :=
  ∀ (x : RegIdx) (s : State), ∃ t, exec (.ldMemVx x) s = .next t ∧
    ∀ u : State, u.i = s.i → (∀ a, u.memByte a = t.memByte a) →
      ∃ r, exec (.ldVxMem x) u = .next r ∧ ∀ k : RegIdx, k.toNat ≤ x.toNat → r.getV k = s.getV k

/-- 20_memory.md section 4 and 70_reset_and_hazards.md section 4 (derived by the spec; its decision D21): a store
into the word that follows the storing instruction is the very next word fetched. -/
def Obligations.StoredWordIsFetchedNext : Prop :=
  ∀ (x : RegIdx) (s : State), 1 ≤ x.toNat → s.i.toNat % 4096 = (s.pc.toNat + 2) % 4096 →
    ∃ t, exec (.ldMemVx x) s = .next t ∧ t.fetchWord = s.getV 0x0#4 ++ s.getV 0x1#4

/-! Display -/

/-- 44_display.md R221: every cell off, VF and all else unchanged. -/
def Obligations.ClearTurnsEveryCellOff : Prop :=
  decode 0x00E0#16 = .instr .cls
    ∧ ∀ s : State, Completes .cls s [.disp] fun t => (∀ x y, displayCell t x y = false) ∧ Advanced 2 s t

/-- 44_display.md sections 2 and 3: the cells a 1 bit falls on are inverted, every other cell is unchanged, and VF
is 1 exactly when such a cell was on before; N = 0 draws nothing and sets VF to 0. The bit order is the spec's own
decision D15, the meaning of N = 0 its decision D16. -/
def Obligations.DrawInvertsCoveredCells : Prop :=
  ∀ (x y : RegIdx) (n : Nibble) (s : State), decode (0xD#4 ++ x ++ y ++ n) = .instr (.drw x y n)
    ∧ Completes (.drw x y n) s [.v, .disp] fun t =>
        (∀ (cx : Fin 64) (cy : Fin 32),
          (Covers s ((s.getV x).toNat % 64) ((s.getV y).toNat % 32) n.toNat cx.val cy.val →
            displayCell t cx cy = !displayCell s cx cy)
          ∧ (¬ Covers s ((s.getV x).toNat % 64) ((s.getV y).toNat % 32) n.toNat cx.val cy.val →
            displayCell t cx cy = displayCell s cx cy))
        ∧ (t.getV vf = 1#8 ↔ ∃ (cx : Fin 64) (cy : Fin 32), displayCell s cx cy = true
            ∧ Covers s ((s.getV x).toNat % 64) ((s.getV y).toNat % 32) n.toNat cx.val cy.val)
        ∧ (t.getV vf = 0#8 ∨ t.getV vf = 1#8) ∧ RegsBut [vf] s t ∧ Advanced 2 s t

/-- 44_display.md section 3 (derived by the spec): drawing the same sprite at the same position again restores the
display, and the second VF is 1 exactly when the first draw turned some cell on. -/
def Obligations.SecondDrawErasesTheFirst : Prop :=
  ∀ (x y : RegIdx) (n : Nibble) (s : State), ∃ t, exec (.drw x y n) s = .next t ∧
    ∀ (x' y' : RegIdx) (u : State), u.disp = t.disp → u.i = s.i → (∀ a, u.memByte a = s.memByte a) →
      u.getV x' = s.getV x → u.getV y' = s.getV y →
      ∃ r, exec (.drw x' y' n) u = .next r ∧ r.disp = s.disp
        ∧ (r.getV vf = 1#8 ↔ ∃ (cx : Fin 64) (cy : Fin 32), displayCell s cx cy = false ∧ displayCell t cx cy = true)

/-! Keypad and timers -/

/-- 45_input_timers.md sections 1 and 2: the key skips. That the key is the low nibble of VX is the spec's own
decision D12 ("key index = VX & 0x0F"). -/
def Obligations.SkipOnKey : Prop :=
  ∀ (x : RegIdx) (s : State),
    decode (0xE#4 ++ x ++ 0x9E#8) = .instr (.skp x) ∧ decode (0xE#4 ++ x ++ 0xA1#8) = .instr (.sknp x)
    ∧ (∀ k : RegIdx, k.toNat = (s.getV x).toNat % 16 →
        (Completes (.skp x) s [] fun t => Advanced (if s.keyDown k = true then 4 else 2) s t)
        ∧ (Completes (.sknp x) s [] fun t => Advanced (if s.keyDown k = true then 2 else 4) s t))

/-- 45_input_timers.md R243: LD Vx, DT. -/
def Obligations.ReadDelayTimer : Prop :=
  ∀ (x : RegIdx) (s : State), decode (0xF#4 ++ x ++ 0x07#8) = .instr (.ldVxDt x)
    ∧ Completes (.ldVxDt x) s [.v] fun t => t.getV x = s.dt ∧ RegsBut [x] s t ∧ Advanced 2 s t

/-- 45_input_timers.md R245, R246: LD DT, Vx and LD ST, Vx. -/
def Obligations.SetTimers : Prop :=
  ∀ (x : RegIdx) (s : State),
    decode (0xF#4 ++ x ++ 0x15#8) = .instr (.ldDtVx x) ∧ decode (0xF#4 ++ x ++ 0x18#8) = .instr (.ldStVx x)
    ∧ (Completes (.ldDtVx x) s [.dt] fun t => t.dt = s.getV x ∧ Advanced 2 s t)
    ∧ (Completes (.ldStVx x) s [.st] fun t => t.st = s.getV x ∧ Advanced 2 s t)

/-- 60_exceptions.md R265: FX0A with every key released sets exec_state to AwaitingKey and changes nothing else;
PC still addresses it. -/
def Obligations.KeyWaitChangesOnlyExecState : Prop :=
  ∀ (x : RegIdx) (s : State), (∀ k, s.keyDown k = false) →
    ∃ t, exec (.ldVxK x) s = .next t ∧ t.report = .waitingForKey ∧ t.execState = .awaitingKey
      ∧ SameBut [.exec, .report] s t

/-- 45_input_timers.md section 3: FX0A with a key pressed stores the smallest pressed index at once and the
executor runs. Level sensitivity and the smallest index are the spec's own decision D13 ("the smallest pressed index
is stored"). -/
def Obligations.KeyWaitStoresSmallestKey : Prop :=
  ∀ (x : RegIdx) (s : State), decode (0xF#4 ++ x ++ 0x0A#8) = .instr (.ldVxK x)
    ∧ ∀ k : RegIdx, s.keyDown k = true → (∀ j : RegIdx, j.toNat < k.toNat → s.keyDown j = false) →
        Completes (.ldVxK x) s [.v, .exec] fun t =>
          (t.getV x).toNat = k.toNat ∧ t.execState = .running ∧ RegsBut [x] s t ∧ Advanced 2 s t

/-! The host's operations -/

/-- 60_exceptions.md R271, R273: a tick takes one off each nonzero timer, never below 0, and changes nothing else;
the sound output is on exactly while ST is not 0. -/
def Obligations.TickCountsDownToZero : Prop :=
  ∀ s : State, (tickTimers s).dt.toNat = s.dt.toNat - 1 ∧ (tickTimers s).st.toNat = s.st.toNat - 1
    ∧ SameBut [.dt, .st] s (tickTimers s) ∧ (soundActive s = true ↔ s.st.toNat ≠ 0)

/-- 60_exceptions.md section 3: set_key writes one key and nothing else. That an index outside the keypad is
refused is the spec's own decision D28 ("the model refuses `set_key` with another index"). -/
def Obligations.SetKeyWritesOneKey : Prop :=
  ∀ (s : State) (k : Nat) (pressed : Bool),
    (∀ j : RegIdx, j.toNat = k → ∃ t, setKey k pressed s = .next t ∧ t.keyDown j = pressed ∧ SameBut [.key] s t
      ∧ ∀ i : RegIdx, i ≠ j → t.keyDown i = s.keyDown i)
    ∧ (16 ≤ k → setKey k pressed s = .refused .keyOutsideKeypad)

/-- 70_reset_and_hazards.md section 2: an accepted ROM stands verbatim from 0x200 on, every other byte and register
keeps its value, and the core is loaded. That a second load is refused is the spec's own decision D23 ("a second
`load_rom` is refused"). -/
def Obligations.AcceptedRomIsWrittenVerbatim : Prop :=
  ∀ (bytes : List Byte) (s : State),
    (s.loaded = false → bytes.length ≤ 3584 → ∃ t, loadRom bytes s = .accepted t ∧ t.loaded = true
      ∧ (∀ (k : Nat) (h : k < bytes.length), t.memByte (0x200 + k) = bytes[k])
      ∧ (∀ a, a < 4096 → a < 0x200 ∨ 0x200 + bytes.length ≤ a → t.memByte a = s.memByte a)
      ∧ SameBut [.mem, .loaded] s t)
    ∧ (s.loaded = true → loadRom bytes s = .refused .alreadyLoaded)

/-- 70_reset_and_hazards.md section 2: a ROM too large is rejected whole. That the whole core is as it was and the
host's schedule goes on is the model's reading (log entry 26, DEDUCED); the spec says that no byte is written and that
the core stays unloaded. -/
def Obligations.OversizedRomIsRejectedWhole : Prop :=
  ∀ (bytes : List Byte) (s : State), s.loaded = false → 3584 < bytes.length →
    loadRom bytes s = .rejected ∧ applyEvent (.loadRom bytes) s = .next s

/-! Rules about every instruction -/

/-- The frame of every instruction: whatever it does, only PC, the report and the parts its rule names are written
(10_state.md sections 2 to 9: only FX15 and FX18 write a timer, only 00E0 and DXYN the display, only FX33 and FX55
memory, only CALL and RET the stack, none the keypad or the loaded flag). Which bytes FX33 and FX55 may change is
said by DecimalDigitsAreStored and RegistersAreStored, from the address their meaning stores at (I + k modulo 4096).
That I survives FX55 and FX65 is the spec's own decision D14 (log entry 15), that VF survives FX1E its decision D9 (log
entry 13). -/
def Obligations.EveryInstructionKeepsItsFrame : Prop :=
  ∀ (i : Instr) (s t : State), exec i s = .next t → SameBut (.pc :: .report :: writes i) s t

/-- 10_state.md section 2: a register changes only under an instruction that names it as a destination, and VF
besides only under the six flag writers. -/
def Obligations.OnlyNamedRegistersChange : Prop :=
  ∀ (i : Instr) (s t : State), exec i s = .next t → ∀ k, writesReg i k = false → t.getV k = s.getV k

/-- 10_state.md section 3 and 40_executor.md section 1: every instruction that does not steer PC completes and
advances it by 2 (modulo 2^16, the spec's own decision D2). -/
def Obligations.DefaultAdvanceIsTwo : Prop :=
  ∀ (i : Instr) (s : State), steersPc i = false →
    ∃ t, exec i s = .next t ∧ t.report = .normal ∧ Advanced 2 s t
end

