-- ==== Sys2Proof/Laws/State.lean ====
section
/-! SUPPORT. What each field reads after each update of the state: one lemma per field per update, all true by
unfolding, so that no later proof unfolds a record update. -/
namespace Sys2Proof.Machine.State

variable (s : State)

/-! `setByte` writes one byte of memory. -/

@[simp] theorem setByte_mem (a : Nat) (b : Byte) : (s.setByte a b).mem = Memory.write s.mem (wrapAddr a) b := rfl
@[simp] theorem setByte_v (a : Nat) (b : Byte) : (s.setByte a b).v = s.v := rfl
@[simp] theorem setByte_i (a : Nat) (b : Byte) : (s.setByte a b).i = s.i := rfl
@[simp] theorem setByte_pc (a : Nat) (b : Byte) : (s.setByte a b).pc = s.pc := rfl
@[simp] theorem setByte_stack (a : Nat) (b : Byte) : (s.setByte a b).stack = s.stack := rfl
@[simp] theorem setByte_sp (a : Nat) (b : Byte) : (s.setByte a b).sp = s.sp := rfl
@[simp] theorem setByte_dt (a : Nat) (b : Byte) : (s.setByte a b).dt = s.dt := rfl
@[simp] theorem setByte_st (a : Nat) (b : Byte) : (s.setByte a b).st = s.st := rfl
@[simp] theorem setByte_disp (a : Nat) (b : Byte) : (s.setByte a b).disp = s.disp := rfl
@[simp] theorem setByte_key (a : Nat) (b : Byte) : (s.setByte a b).key = s.key := rfl
@[simp] theorem setByte_execState (a : Nat) (b : Byte) : (s.setByte a b).execState = s.execState := rfl
@[simp] theorem setByte_loaded (a : Nat) (b : Byte) : (s.setByte a b).loaded = s.loaded := rfl
@[simp] theorem setByte_report (a : Nat) (b : Byte) : (s.setByte a b).report = s.report := rfl
@[simp] theorem setByte_draws (a : Nat) (b : Byte) : (s.setByte a b).draws = s.draws := rfl

/-! `setV` writes one register. -/

@[simp] theorem setV_mem (x : RegIdx) (b : Byte) : (s.setV x b).mem = s.mem := rfl
@[simp] theorem setV_v (x : RegIdx) (b : Byte) : (s.setV x b).v = s.v.set x.toNat b := rfl
@[simp] theorem setV_i (x : RegIdx) (b : Byte) : (s.setV x b).i = s.i := rfl
@[simp] theorem setV_pc (x : RegIdx) (b : Byte) : (s.setV x b).pc = s.pc := rfl
@[simp] theorem setV_stack (x : RegIdx) (b : Byte) : (s.setV x b).stack = s.stack := rfl
@[simp] theorem setV_sp (x : RegIdx) (b : Byte) : (s.setV x b).sp = s.sp := rfl
@[simp] theorem setV_dt (x : RegIdx) (b : Byte) : (s.setV x b).dt = s.dt := rfl
@[simp] theorem setV_st (x : RegIdx) (b : Byte) : (s.setV x b).st = s.st := rfl
@[simp] theorem setV_disp (x : RegIdx) (b : Byte) : (s.setV x b).disp = s.disp := rfl
@[simp] theorem setV_key (x : RegIdx) (b : Byte) : (s.setV x b).key = s.key := rfl
@[simp] theorem setV_execState (x : RegIdx) (b : Byte) : (s.setV x b).execState = s.execState := rfl
@[simp] theorem setV_loaded (x : RegIdx) (b : Byte) : (s.setV x b).loaded = s.loaded := rfl
@[simp] theorem setV_report (x : RegIdx) (b : Byte) : (s.setV x b).report = s.report := rfl
@[simp] theorem setV_draws (x : RegIdx) (b : Byte) : (s.setV x b).draws = s.draws := rfl

/-! `setVWithFlag` writes a register and then VF. -/

@[simp] theorem setVWithFlag_mem (x : RegIdx) (b f : Byte) : (s.setVWithFlag x b f).mem = s.mem := rfl
@[simp] theorem setVWithFlag_v (x : RegIdx) (b f : Byte) : (s.setVWithFlag x b f).v = (s.v.set x.toNat b).set 15 f := rfl
@[simp] theorem setVWithFlag_i (x : RegIdx) (b f : Byte) : (s.setVWithFlag x b f).i = s.i := rfl
@[simp] theorem setVWithFlag_pc (x : RegIdx) (b f : Byte) : (s.setVWithFlag x b f).pc = s.pc := rfl
@[simp] theorem setVWithFlag_stack (x : RegIdx) (b f : Byte) : (s.setVWithFlag x b f).stack = s.stack := rfl
@[simp] theorem setVWithFlag_sp (x : RegIdx) (b f : Byte) : (s.setVWithFlag x b f).sp = s.sp := rfl
@[simp] theorem setVWithFlag_dt (x : RegIdx) (b f : Byte) : (s.setVWithFlag x b f).dt = s.dt := rfl
@[simp] theorem setVWithFlag_st (x : RegIdx) (b f : Byte) : (s.setVWithFlag x b f).st = s.st := rfl
@[simp] theorem setVWithFlag_disp (x : RegIdx) (b f : Byte) : (s.setVWithFlag x b f).disp = s.disp := rfl
@[simp] theorem setVWithFlag_key (x : RegIdx) (b f : Byte) : (s.setVWithFlag x b f).key = s.key := rfl
@[simp] theorem setVWithFlag_execState (x : RegIdx) (b f : Byte) : (s.setVWithFlag x b f).execState = s.execState := rfl
@[simp] theorem setVWithFlag_loaded (x : RegIdx) (b f : Byte) : (s.setVWithFlag x b f).loaded = s.loaded := rfl
@[simp] theorem setVWithFlag_report (x : RegIdx) (b f : Byte) : (s.setVWithFlag x b f).report = s.report := rfl
@[simp] theorem setVWithFlag_draws (x : RegIdx) (b f : Byte) : (s.setVWithFlag x b f).draws = s.draws := rfl

/-! `loadRegs` writes V0 to Vx from memory. -/

@[simp] theorem loadRegs_mem (x : RegIdx) (a : Nat) : (s.loadRegs x a).mem = s.mem := rfl
@[simp] theorem loadRegs_i (x : RegIdx) (a : Nat) : (s.loadRegs x a).i = s.i := rfl
@[simp] theorem loadRegs_pc (x : RegIdx) (a : Nat) : (s.loadRegs x a).pc = s.pc := rfl
@[simp] theorem loadRegs_stack (x : RegIdx) (a : Nat) : (s.loadRegs x a).stack = s.stack := rfl
@[simp] theorem loadRegs_sp (x : RegIdx) (a : Nat) : (s.loadRegs x a).sp = s.sp := rfl
@[simp] theorem loadRegs_dt (x : RegIdx) (a : Nat) : (s.loadRegs x a).dt = s.dt := rfl
@[simp] theorem loadRegs_st (x : RegIdx) (a : Nat) : (s.loadRegs x a).st = s.st := rfl
@[simp] theorem loadRegs_disp (x : RegIdx) (a : Nat) : (s.loadRegs x a).disp = s.disp := rfl
@[simp] theorem loadRegs_key (x : RegIdx) (a : Nat) : (s.loadRegs x a).key = s.key := rfl
@[simp] theorem loadRegs_execState (x : RegIdx) (a : Nat) : (s.loadRegs x a).execState = s.execState := rfl
@[simp] theorem loadRegs_loaded (x : RegIdx) (a : Nat) : (s.loadRegs x a).loaded = s.loaded := rfl
@[simp] theorem loadRegs_report (x : RegIdx) (a : Nat) : (s.loadRegs x a).report = s.report := rfl
@[simp] theorem loadRegs_draws (x : RegIdx) (a : Nat) : (s.loadRegs x a).draws = s.draws := rfl

/-! `setI` writes I. -/

@[simp] theorem setI_mem (w : Word) : (s.setI w).mem = s.mem := rfl
@[simp] theorem setI_v (w : Word) : (s.setI w).v = s.v := rfl
@[simp] theorem setI_i (w : Word) : (s.setI w).i = w := rfl
@[simp] theorem setI_pc (w : Word) : (s.setI w).pc = s.pc := rfl
@[simp] theorem setI_stack (w : Word) : (s.setI w).stack = s.stack := rfl
@[simp] theorem setI_sp (w : Word) : (s.setI w).sp = s.sp := rfl
@[simp] theorem setI_dt (w : Word) : (s.setI w).dt = s.dt := rfl
@[simp] theorem setI_st (w : Word) : (s.setI w).st = s.st := rfl
@[simp] theorem setI_disp (w : Word) : (s.setI w).disp = s.disp := rfl
@[simp] theorem setI_key (w : Word) : (s.setI w).key = s.key := rfl
@[simp] theorem setI_execState (w : Word) : (s.setI w).execState = s.execState := rfl
@[simp] theorem setI_loaded (w : Word) : (s.setI w).loaded = s.loaded := rfl
@[simp] theorem setI_report (w : Word) : (s.setI w).report = s.report := rfl
@[simp] theorem setI_draws (w : Word) : (s.setI w).draws = s.draws := rfl

/-! `setPc` writes PC. -/

@[simp] theorem setPc_mem (w : Word) : (s.setPc w).mem = s.mem := rfl
@[simp] theorem setPc_v (w : Word) : (s.setPc w).v = s.v := rfl
@[simp] theorem setPc_i (w : Word) : (s.setPc w).i = s.i := rfl
@[simp] theorem setPc_pc (w : Word) : (s.setPc w).pc = w := rfl
@[simp] theorem setPc_stack (w : Word) : (s.setPc w).stack = s.stack := rfl
@[simp] theorem setPc_sp (w : Word) : (s.setPc w).sp = s.sp := rfl
@[simp] theorem setPc_dt (w : Word) : (s.setPc w).dt = s.dt := rfl
@[simp] theorem setPc_st (w : Word) : (s.setPc w).st = s.st := rfl
@[simp] theorem setPc_disp (w : Word) : (s.setPc w).disp = s.disp := rfl
@[simp] theorem setPc_key (w : Word) : (s.setPc w).key = s.key := rfl
@[simp] theorem setPc_execState (w : Word) : (s.setPc w).execState = s.execState := rfl
@[simp] theorem setPc_loaded (w : Word) : (s.setPc w).loaded = s.loaded := rfl
@[simp] theorem setPc_report (w : Word) : (s.setPc w).report = s.report := rfl
@[simp] theorem setPc_draws (w : Word) : (s.setPc w).draws = s.draws := rfl

/-! `setDt` writes DT. -/

@[simp] theorem setDt_mem (b : Byte) : (s.setDt b).mem = s.mem := rfl
@[simp] theorem setDt_v (b : Byte) : (s.setDt b).v = s.v := rfl
@[simp] theorem setDt_i (b : Byte) : (s.setDt b).i = s.i := rfl
@[simp] theorem setDt_pc (b : Byte) : (s.setDt b).pc = s.pc := rfl
@[simp] theorem setDt_stack (b : Byte) : (s.setDt b).stack = s.stack := rfl
@[simp] theorem setDt_sp (b : Byte) : (s.setDt b).sp = s.sp := rfl
@[simp] theorem setDt_dt (b : Byte) : (s.setDt b).dt = b := rfl
@[simp] theorem setDt_st (b : Byte) : (s.setDt b).st = s.st := rfl
@[simp] theorem setDt_disp (b : Byte) : (s.setDt b).disp = s.disp := rfl
@[simp] theorem setDt_key (b : Byte) : (s.setDt b).key = s.key := rfl
@[simp] theorem setDt_execState (b : Byte) : (s.setDt b).execState = s.execState := rfl
@[simp] theorem setDt_loaded (b : Byte) : (s.setDt b).loaded = s.loaded := rfl
@[simp] theorem setDt_report (b : Byte) : (s.setDt b).report = s.report := rfl
@[simp] theorem setDt_draws (b : Byte) : (s.setDt b).draws = s.draws := rfl

/-! `setSt` writes ST. -/

@[simp] theorem setSt_mem (b : Byte) : (s.setSt b).mem = s.mem := rfl
@[simp] theorem setSt_v (b : Byte) : (s.setSt b).v = s.v := rfl
@[simp] theorem setSt_i (b : Byte) : (s.setSt b).i = s.i := rfl
@[simp] theorem setSt_pc (b : Byte) : (s.setSt b).pc = s.pc := rfl
@[simp] theorem setSt_stack (b : Byte) : (s.setSt b).stack = s.stack := rfl
@[simp] theorem setSt_sp (b : Byte) : (s.setSt b).sp = s.sp := rfl
@[simp] theorem setSt_dt (b : Byte) : (s.setSt b).dt = s.dt := rfl
@[simp] theorem setSt_st (b : Byte) : (s.setSt b).st = b := rfl
@[simp] theorem setSt_disp (b : Byte) : (s.setSt b).disp = s.disp := rfl
@[simp] theorem setSt_key (b : Byte) : (s.setSt b).key = s.key := rfl
@[simp] theorem setSt_execState (b : Byte) : (s.setSt b).execState = s.execState := rfl
@[simp] theorem setSt_loaded (b : Byte) : (s.setSt b).loaded = s.loaded := rfl
@[simp] theorem setSt_report (b : Byte) : (s.setSt b).report = s.report := rfl
@[simp] theorem setSt_draws (b : Byte) : (s.setSt b).draws = s.draws := rfl

/-! `setDisp` writes the display. -/

@[simp] theorem setDisp_mem (d : Display) : (s.setDisp d).mem = s.mem := rfl
@[simp] theorem setDisp_v (d : Display) : (s.setDisp d).v = s.v := rfl
@[simp] theorem setDisp_i (d : Display) : (s.setDisp d).i = s.i := rfl
@[simp] theorem setDisp_pc (d : Display) : (s.setDisp d).pc = s.pc := rfl
@[simp] theorem setDisp_stack (d : Display) : (s.setDisp d).stack = s.stack := rfl
@[simp] theorem setDisp_sp (d : Display) : (s.setDisp d).sp = s.sp := rfl
@[simp] theorem setDisp_dt (d : Display) : (s.setDisp d).dt = s.dt := rfl
@[simp] theorem setDisp_st (d : Display) : (s.setDisp d).st = s.st := rfl
@[simp] theorem setDisp_disp (d : Display) : (s.setDisp d).disp = d := rfl
@[simp] theorem setDisp_key (d : Display) : (s.setDisp d).key = s.key := rfl
@[simp] theorem setDisp_execState (d : Display) : (s.setDisp d).execState = s.execState := rfl
@[simp] theorem setDisp_loaded (d : Display) : (s.setDisp d).loaded = s.loaded := rfl
@[simp] theorem setDisp_report (d : Display) : (s.setDisp d).report = s.report := rfl
@[simp] theorem setDisp_draws (d : Display) : (s.setDisp d).draws = s.draws := rfl

/-! `setExec` writes exec_state. -/

@[simp] theorem setExec_mem (e : ExecState) : (s.setExec e).mem = s.mem := rfl
@[simp] theorem setExec_v (e : ExecState) : (s.setExec e).v = s.v := rfl
@[simp] theorem setExec_i (e : ExecState) : (s.setExec e).i = s.i := rfl
@[simp] theorem setExec_pc (e : ExecState) : (s.setExec e).pc = s.pc := rfl
@[simp] theorem setExec_stack (e : ExecState) : (s.setExec e).stack = s.stack := rfl
@[simp] theorem setExec_sp (e : ExecState) : (s.setExec e).sp = s.sp := rfl
@[simp] theorem setExec_dt (e : ExecState) : (s.setExec e).dt = s.dt := rfl
@[simp] theorem setExec_st (e : ExecState) : (s.setExec e).st = s.st := rfl
@[simp] theorem setExec_disp (e : ExecState) : (s.setExec e).disp = s.disp := rfl
@[simp] theorem setExec_key (e : ExecState) : (s.setExec e).key = s.key := rfl
@[simp] theorem setExec_execState (e : ExecState) : (s.setExec e).execState = e := rfl
@[simp] theorem setExec_loaded (e : ExecState) : (s.setExec e).loaded = s.loaded := rfl
@[simp] theorem setExec_report (e : ExecState) : (s.setExec e).report = s.report := rfl
@[simp] theorem setExec_draws (e : ExecState) : (s.setExec e).draws = s.draws := rfl

/-! `setLoaded` writes the loaded flag. -/

@[simp] theorem setLoaded_mem (b : Bool) : (s.setLoaded b).mem = s.mem := rfl
@[simp] theorem setLoaded_v (b : Bool) : (s.setLoaded b).v = s.v := rfl
@[simp] theorem setLoaded_i (b : Bool) : (s.setLoaded b).i = s.i := rfl
@[simp] theorem setLoaded_pc (b : Bool) : (s.setLoaded b).pc = s.pc := rfl
@[simp] theorem setLoaded_stack (b : Bool) : (s.setLoaded b).stack = s.stack := rfl
@[simp] theorem setLoaded_sp (b : Bool) : (s.setLoaded b).sp = s.sp := rfl
@[simp] theorem setLoaded_dt (b : Bool) : (s.setLoaded b).dt = s.dt := rfl
@[simp] theorem setLoaded_st (b : Bool) : (s.setLoaded b).st = s.st := rfl
@[simp] theorem setLoaded_disp (b : Bool) : (s.setLoaded b).disp = s.disp := rfl
@[simp] theorem setLoaded_key (b : Bool) : (s.setLoaded b).key = s.key := rfl
@[simp] theorem setLoaded_execState (b : Bool) : (s.setLoaded b).execState = s.execState := rfl
@[simp] theorem setLoaded_loaded (b : Bool) : (s.setLoaded b).loaded = b := rfl
@[simp] theorem setLoaded_report (b : Bool) : (s.setLoaded b).report = s.report := rfl
@[simp] theorem setLoaded_draws (b : Bool) : (s.setLoaded b).draws = s.draws := rfl

/-! `setReport` writes the report. -/

@[simp] theorem setReport_mem (r : StepReport) : (s.setReport r).mem = s.mem := rfl
@[simp] theorem setReport_v (r : StepReport) : (s.setReport r).v = s.v := rfl
@[simp] theorem setReport_i (r : StepReport) : (s.setReport r).i = s.i := rfl
@[simp] theorem setReport_pc (r : StepReport) : (s.setReport r).pc = s.pc := rfl
@[simp] theorem setReport_stack (r : StepReport) : (s.setReport r).stack = s.stack := rfl
@[simp] theorem setReport_sp (r : StepReport) : (s.setReport r).sp = s.sp := rfl
@[simp] theorem setReport_dt (r : StepReport) : (s.setReport r).dt = s.dt := rfl
@[simp] theorem setReport_st (r : StepReport) : (s.setReport r).st = s.st := rfl
@[simp] theorem setReport_disp (r : StepReport) : (s.setReport r).disp = s.disp := rfl
@[simp] theorem setReport_key (r : StepReport) : (s.setReport r).key = s.key := rfl
@[simp] theorem setReport_execState (r : StepReport) : (s.setReport r).execState = s.execState := rfl
@[simp] theorem setReport_loaded (r : StepReport) : (s.setReport r).loaded = s.loaded := rfl
@[simp] theorem setReport_report (r : StepReport) : (s.setReport r).report = r := rfl
@[simp] theorem setReport_draws (r : StepReport) : (s.setReport r).draws = s.draws := rfl

/-! `setKeyAt` writes one key. -/

@[simp] theorem setKeyAt_mem (k : RegIdx) (p : Bool) : (s.setKeyAt k p).mem = s.mem := rfl
@[simp] theorem setKeyAt_v (k : RegIdx) (p : Bool) : (s.setKeyAt k p).v = s.v := rfl
@[simp] theorem setKeyAt_i (k : RegIdx) (p : Bool) : (s.setKeyAt k p).i = s.i := rfl
@[simp] theorem setKeyAt_pc (k : RegIdx) (p : Bool) : (s.setKeyAt k p).pc = s.pc := rfl
@[simp] theorem setKeyAt_stack (k : RegIdx) (p : Bool) : (s.setKeyAt k p).stack = s.stack := rfl
@[simp] theorem setKeyAt_sp (k : RegIdx) (p : Bool) : (s.setKeyAt k p).sp = s.sp := rfl
@[simp] theorem setKeyAt_dt (k : RegIdx) (p : Bool) : (s.setKeyAt k p).dt = s.dt := rfl
@[simp] theorem setKeyAt_st (k : RegIdx) (p : Bool) : (s.setKeyAt k p).st = s.st := rfl
@[simp] theorem setKeyAt_disp (k : RegIdx) (p : Bool) : (s.setKeyAt k p).disp = s.disp := rfl
@[simp] theorem setKeyAt_key (k : RegIdx) (p : Bool) : (s.setKeyAt k p).key = s.key.set k.toNat p := rfl
@[simp] theorem setKeyAt_execState (k : RegIdx) (p : Bool) : (s.setKeyAt k p).execState = s.execState := rfl
@[simp] theorem setKeyAt_loaded (k : RegIdx) (p : Bool) : (s.setKeyAt k p).loaded = s.loaded := rfl
@[simp] theorem setKeyAt_report (k : RegIdx) (p : Bool) : (s.setKeyAt k p).report = s.report := rfl
@[simp] theorem setKeyAt_draws (k : RegIdx) (p : Bool) : (s.setKeyAt k p).draws = s.draws := rfl

/-! `nextDraw` writes the draw counter. -/

@[simp] theorem nextDraw_mem : s.nextDraw.mem = s.mem := rfl
@[simp] theorem nextDraw_v : s.nextDraw.v = s.v := rfl
@[simp] theorem nextDraw_i : s.nextDraw.i = s.i := rfl
@[simp] theorem nextDraw_pc : s.nextDraw.pc = s.pc := rfl
@[simp] theorem nextDraw_stack : s.nextDraw.stack = s.stack := rfl
@[simp] theorem nextDraw_sp : s.nextDraw.sp = s.sp := rfl
@[simp] theorem nextDraw_dt : s.nextDraw.dt = s.dt := rfl
@[simp] theorem nextDraw_st : s.nextDraw.st = s.st := rfl
@[simp] theorem nextDraw_disp : s.nextDraw.disp = s.disp := rfl
@[simp] theorem nextDraw_key : s.nextDraw.key = s.key := rfl
@[simp] theorem nextDraw_execState : s.nextDraw.execState = s.execState := rfl
@[simp] theorem nextDraw_loaded : s.nextDraw.loaded = s.loaded := rfl
@[simp] theorem nextDraw_report : s.nextDraw.report = s.report := rfl
@[simp] theorem nextDraw_draws : s.nextDraw.draws = s.draws + 1 := rfl

end Sys2Proof.Machine.State
end

