-- ==== Sys2Proof/Laws/Memory.lean ====
section
/-! SUPPORT. The laws of memory: a read after a write, at every address and for every list, and that every memory
operation keeps the canonical form (20_memory.md R63, R68, R69). -/
namespace Sys2Proof.Machine

theorem Memory.lookup_erase (m : List Host.Cell) (a c : Nat) :
    Memory.lookup (Memory.erase m a) c = if c = a then initialByte a else Memory.lookup m c := by
  induction m with
  | nil => by_cases h : c = a <;> simp [Memory.erase, Memory.lookup, h]
  | cons e m ih =>
    obtain ⟨b, v⟩ := e
    by_cases hb : b = a
    · rw [Memory.erase, if_pos hb, ih]
      by_cases hc : c = a
      · simp [hc]
      · simp [Memory.lookup, hb, hc, Ne.symm hc]
    · by_cases hc : c = a
      · subst hc
        simp [Memory.erase, Memory.lookup, hb, ih]
      · simp [Memory.erase, Memory.lookup, hb, hc, ih]

theorem Memory.lookup_insert (m : List Host.Cell) (a c : Nat) (v : Byte)
    (h : ∀ e ∈ m, e.1 ≠ a) :
    Memory.lookup (Memory.insert m a v) c = if c = a then v else Memory.lookup m c := by
  induction m with
  | nil =>
    by_cases hc : c = a
    · simp [Memory.insert, Memory.lookup, hc]
    · simp [Memory.insert, Memory.lookup, hc, Ne.symm hc]
  | cons e m ih =>
    obtain ⟨b, u⟩ := e
    have hb : b ≠ a := h (b, u) (by simp)
    have ih := ih fun e he => h e (by simp [he])
    by_cases hlt : a < b
    · by_cases hc : c = a
      · simp [Memory.insert, Memory.lookup, hlt, hc]
      · simp [Memory.insert, Memory.lookup, hlt, hc, Ne.symm hc]
    · by_cases hc : c = a
      · subst hc
        simp [Memory.insert, Memory.lookup, hlt, hb, ih]
      · simp [Memory.insert, Memory.lookup, hlt, hc, ih]

theorem Memory.not_mem_erase (m : List Host.Cell) (a : Nat) : ∀ e ∈ Memory.erase m a, e.1 ≠ a := by
  induction m with
  | nil => simp [Memory.erase]
  | cons e m ih =>
    obtain ⟨b, v⟩ := e
    by_cases hb : b = a
    · simpa [Memory.erase, hb] using ih
    · intro e he
      simp only [Memory.erase, hb, if_false, List.mem_cons] at he
      rcases he with rfl | he
      · exact hb
      · exact ih e he

/-- A read after a write: the written byte at its own address, the old byte everywhere else. -/
theorem Memory.lookup_write (m : List Host.Cell) (a c : Nat) (v : Byte) :
    Memory.lookup (Memory.write m a v) c = if c = a then v else Memory.lookup m c := by
  unfold Memory.write
  split
  · rename_i h
    rw [Memory.lookup_erase, h]
  · rw [Memory.lookup_insert _ _ _ _ (Memory.not_mem_erase m a), Memory.lookup_erase]
    by_cases hc : c = a <;> simp [hc]

/-! The canonical form -/

theorem Memory.wfFrom_mono {m : List Host.Cell} {lo lo' : Nat} (h : Memory.wfFrom lo' m = true) (hl : lo ≤ lo') :
    Memory.wfFrom lo m = true := by
  cases m with
  | nil => rfl
  | cons e m =>
    obtain ⟨a, v⟩ := e
    simp only [Memory.wfFrom, Bool.and_eq_true, decide_eq_true_eq] at h ⊢
    exact ⟨⟨⟨le_trans hl h.1.1.1, h.1.1.2⟩, h.1.2⟩, h.2⟩

theorem Memory.wfFrom_erase {m : List Host.Cell} {lo : Nat} (a : Nat) (h : Memory.wfFrom lo m = true) :
    Memory.wfFrom lo (Memory.erase m a) = true := by
  induction m generalizing lo with
  | nil => rfl
  | cons e m ih =>
    obtain ⟨b, v⟩ := e
    simp only [Memory.wfFrom, Bool.and_eq_true, decide_eq_true_eq] at h
    by_cases hb : b = a
    · simp only [Memory.erase, hb, if_true]
      exact ih (Memory.wfFrom_mono h.2 (by omega))
    · simp only [Memory.erase, hb, if_false, Memory.wfFrom, Bool.and_eq_true, decide_eq_true_eq]
      exact ⟨h.1, ih h.2⟩

theorem Memory.wfFrom_insert {m : List Host.Cell} {lo a : Nat} {v : Byte} (h : Memory.wfFrom lo m = true)
    (hm : ∀ e ∈ m, e.1 ≠ a) (hlo : lo ≤ a) (ha : a < Config.memSize) (hv : v ≠ initialByte a) :
    Memory.wfFrom lo (Memory.insert m a v) = true := by
  induction m generalizing lo with
  | nil => simp [Memory.insert, Memory.wfFrom, hlo, ha, hv]
  | cons e m ih =>
    obtain ⟨b, u⟩ := e
    have hb : b ≠ a := hm (b, u) (by simp)
    simp only [Memory.wfFrom, Bool.and_eq_true, decide_eq_true_eq] at h
    by_cases hlt : a < b
    · simp only [Memory.insert, hlt, if_true, Memory.wfFrom, Bool.and_eq_true, decide_eq_true_eq]
      exact ⟨⟨⟨hlo, ha⟩, by simpa using hv⟩, ⟨⟨by omega, h.1.1.2⟩, h.1.2⟩, h.2⟩
    · simp only [Memory.insert, hlt, if_false, Memory.wfFrom, Bool.and_eq_true, decide_eq_true_eq]
      exact ⟨h.1, ih h.2 (fun e he => hm e (by simp [he])) (by omega)⟩

/-- Every write keeps the canonical form. -/
theorem Memory.wf_write {m : List Host.Cell} {a : Nat} (v : Byte) (h : Memory.wf m = true)
    (ha : a < Config.memSize) : Memory.wf (Memory.write m a v) = true := by
  unfold Memory.wf Memory.write at *
  split
  · exact Memory.wfFrom_erase a h
  · rename_i hv
    exact Memory.wfFrom_insert (Memory.wfFrom_erase a h) (Memory.not_mem_erase m a) (Nat.zero_le a) ha hv

/-! Bytes of the state -/

theorem wrapAddr_lt (a : Nat) : wrapAddr a < Config.memSize := Nat.mod_lt _ (by decide)

/-- Addresses are reduced modulo 4096 (20_memory.md R63). -/
@[simp] theorem State.memByte_mod (s : State) (a : Nat) : s.memByte (a % 4096) = s.memByte a := by
  simp [State.memByte, wrapAddr]

theorem State.memByte_congr (s : State) {a c : Nat} (h : a % 4096 = c % 4096) : s.memByte a = s.memByte c := by
  rw [← s.memByte_mod a, h, s.memByte_mod]

/-- A read after a write of one byte (00_scope.md R10, 20_memory.md R69). -/
theorem State.memByte_setByte (s : State) (a c : Nat) (b : Byte) :
    (s.setByte a b).memByte c = if c % 4096 = a % 4096 then b else s.memByte c := by
  simp [State.memByte, Memory.lookup_write, wrapAddr]

theorem State.wf_setByte (s : State) (a : Nat) (b : Byte) (h : Memory.wf s.mem = true) :
    Memory.wf (s.setByte a b).mem = true :=
  Memory.wf_write b h (wrapAddr_lt a)

/-- Everything `storeBytes` can do to the rest of the state: nothing. -/
theorem State.storeBytes_only_mem (bs : List Byte) (s : State) (a : Nat) :
    s.storeBytes a bs = { s with mem := (s.storeBytes a bs).mem } := by
  induction bs generalizing s a with
  | nil => rfl
  | cons b bs ih => rw [State.storeBytes, ih]; rfl

theorem State.wf_storeBytes (bs : List Byte) (s : State) (a : Nat) (h : Memory.wf s.mem = true) :
    Memory.wf (s.storeBytes a bs).mem = true := by
  induction bs generalizing s a with
  | nil => exact h
  | cons b bs ih => exact ih _ _ (s.wf_setByte a b h)

/-- A byte outside the stored ones reads as before. -/
theorem State.memByte_storeBytes_outside (bs : List Byte) (s : State) (a c : Nat)
    (h : ∀ k, k < bs.length → c % 4096 ≠ (a + k) % 4096) : (s.storeBytes a bs).memByte c = s.memByte c := by
  induction bs generalizing s a with
  | nil => rfl
  | cons b bs ih =>
    rw [State.storeBytes, ih, State.memByte_setByte, if_neg (by simpa using h 0 (by simp))]
    intro k hk
    have := h (k + 1) (by simpa using hk)
    rwa [Nat.add_assoc, Nat.add_comm 1 k]

/-- A stored byte reads back, as long as the run of addresses does not meet itself modulo 4096. -/
theorem State.memByte_storeBytes_inside (bs : List Byte) (s : State) (a k : Nat) (hk : k < bs.length)
    (hl : bs.length ≤ 4096) : (s.storeBytes a bs).memByte (a + k) = bs[k] := by
  induction bs generalizing s a k with
  | nil => simp at hk
  | cons b bs ih =>
    cases k with
    | zero =>
      rw [State.storeBytes, State.memByte_storeBytes_outside, State.memByte_setByte]
      · simp
      · intro k hk
        simp only [List.length_cons] at hl
        omega
    | succ k =>
      simp only [List.length_cons] at hl hk
      have := ih (s.setByte a b) (a + 1) k (by omega) (by omega)
      simpa [State.storeBytes, Nat.add_assoc, Nat.add_comm 1 k] using this

end Sys2Proof.Machine
end

