-- ==== Sys2Proof/Laws/Accessors.lean ====
section
/-! SUPPORT. What each accessor (a register, a byte of memory, a key) reads after an update of another part of the
state: nothing has changed. -/
namespace Sys2Proof.Machine.State

variable (s : State)

/-! A register. -/

@[simp] theorem getV_setByte (a : Nat) (b : Byte) (k' : RegIdx) : (s.setByte a b).getV k' = s.getV k' := rfl
@[simp] theorem getV_setI (w : Word) (k' : RegIdx) : (s.setI w).getV k' = s.getV k' := rfl
@[simp] theorem getV_setPc (w : Word) (k' : RegIdx) : (s.setPc w).getV k' = s.getV k' := rfl
@[simp] theorem getV_setDt (b : Byte) (k' : RegIdx) : (s.setDt b).getV k' = s.getV k' := rfl
@[simp] theorem getV_setSt (b : Byte) (k' : RegIdx) : (s.setSt b).getV k' = s.getV k' := rfl
@[simp] theorem getV_setDisp (d : Display) (k' : RegIdx) : (s.setDisp d).getV k' = s.getV k' := rfl
@[simp] theorem getV_setExec (e : ExecState) (k' : RegIdx) : (s.setExec e).getV k' = s.getV k' := rfl
@[simp] theorem getV_setLoaded (b : Bool) (k' : RegIdx) : (s.setLoaded b).getV k' = s.getV k' := rfl
@[simp] theorem getV_setReport (r : StepReport) (k' : RegIdx) : (s.setReport r).getV k' = s.getV k' := rfl
@[simp] theorem getV_setKeyAt (k : RegIdx) (p : Bool) (k' : RegIdx) : (s.setKeyAt k p).getV k' = s.getV k' := rfl
@[simp] theorem getV_nextDraw (k' : RegIdx) : s.nextDraw.getV k' = s.getV k' := rfl

/-! A byte of memory. -/

@[simp] theorem memByte_setV (x : RegIdx) (b : Byte) (c : Nat) : (s.setV x b).memByte c = s.memByte c := rfl
@[simp] theorem memByte_setVWithFlag (x : RegIdx) (b f : Byte) (c : Nat) : (s.setVWithFlag x b f).memByte c = s.memByte c := rfl
@[simp] theorem memByte_loadRegs (x : RegIdx) (a : Nat) (c : Nat) : (s.loadRegs x a).memByte c = s.memByte c := rfl
@[simp] theorem memByte_setI (w : Word) (c : Nat) : (s.setI w).memByte c = s.memByte c := rfl
@[simp] theorem memByte_setPc (w : Word) (c : Nat) : (s.setPc w).memByte c = s.memByte c := rfl
@[simp] theorem memByte_setDt (b : Byte) (c : Nat) : (s.setDt b).memByte c = s.memByte c := rfl
@[simp] theorem memByte_setSt (b : Byte) (c : Nat) : (s.setSt b).memByte c = s.memByte c := rfl
@[simp] theorem memByte_setDisp (d : Display) (c : Nat) : (s.setDisp d).memByte c = s.memByte c := rfl
@[simp] theorem memByte_setExec (e : ExecState) (c : Nat) : (s.setExec e).memByte c = s.memByte c := rfl
@[simp] theorem memByte_setLoaded (b : Bool) (c : Nat) : (s.setLoaded b).memByte c = s.memByte c := rfl
@[simp] theorem memByte_setReport (r : StepReport) (c : Nat) : (s.setReport r).memByte c = s.memByte c := rfl
@[simp] theorem memByte_setKeyAt (k : RegIdx) (p : Bool) (c : Nat) : (s.setKeyAt k p).memByte c = s.memByte c := rfl
@[simp] theorem memByte_nextDraw (c : Nat) : s.nextDraw.memByte c = s.memByte c := rfl

/-! A key. -/

@[simp] theorem keyDown_setByte (a : Nat) (b : Byte) (k' : RegIdx) : (s.setByte a b).keyDown k' = s.keyDown k' := rfl
@[simp] theorem keyDown_setV (x : RegIdx) (b : Byte) (k' : RegIdx) : (s.setV x b).keyDown k' = s.keyDown k' := rfl
@[simp] theorem keyDown_setVWithFlag (x : RegIdx) (b f : Byte) (k' : RegIdx) : (s.setVWithFlag x b f).keyDown k' = s.keyDown k' := rfl
@[simp] theorem keyDown_loadRegs (x : RegIdx) (a : Nat) (k' : RegIdx) : (s.loadRegs x a).keyDown k' = s.keyDown k' := rfl
@[simp] theorem keyDown_setI (w : Word) (k' : RegIdx) : (s.setI w).keyDown k' = s.keyDown k' := rfl
@[simp] theorem keyDown_setPc (w : Word) (k' : RegIdx) : (s.setPc w).keyDown k' = s.keyDown k' := rfl
@[simp] theorem keyDown_setDt (b : Byte) (k' : RegIdx) : (s.setDt b).keyDown k' = s.keyDown k' := rfl
@[simp] theorem keyDown_setSt (b : Byte) (k' : RegIdx) : (s.setSt b).keyDown k' = s.keyDown k' := rfl
@[simp] theorem keyDown_setDisp (d : Display) (k' : RegIdx) : (s.setDisp d).keyDown k' = s.keyDown k' := rfl
@[simp] theorem keyDown_setExec (e : ExecState) (k' : RegIdx) : (s.setExec e).keyDown k' = s.keyDown k' := rfl
@[simp] theorem keyDown_setLoaded (b : Bool) (k' : RegIdx) : (s.setLoaded b).keyDown k' = s.keyDown k' := rfl
@[simp] theorem keyDown_setReport (r : StepReport) (k' : RegIdx) : (s.setReport r).keyDown k' = s.keyDown k' := rfl
@[simp] theorem keyDown_nextDraw (k' : RegIdx) : s.nextDraw.keyDown k' = s.keyDown k' := rfl

end Sys2Proof.Machine.State
end

