-- ==== Sys2Proof/Laws/Bits.lean ====
section
/-! SUPPORT. Words as numbers: the value of a word put together from fields, and of each field of a word, for the
three shapes of 30_encoding.md R92 (four nibbles, F-X-NN, F-NNN). -/
namespace Sys2Proof

theorem toNat_append_add {m n : Nat} (a : BitVec m) (b : BitVec n) : (a ++ b).toNat = a.toNat * 2 ^ n + b.toNat := by
  rw [BitVec.toNat_append, ← Nat.shiftLeft_add_eq_or_of_lt b.isLt, Nat.shiftLeft_eq]

theorem toNat_nibbles (f x y n : BitVec 4) :
    (f ++ x ++ y ++ n : Word).toNat = f.toNat * 0x1000 + x.toNat * 0x100 + y.toNat * 0x10 + n.toNat := by
  refine (toNat_append_add (f ++ x ++ y) n).trans ?_
  rw [toNat_append_add, toNat_append_add]
  omega

theorem toNat_byteWord (f x : BitVec 4) (nn : BitVec 8) :
    (f ++ x ++ nn : Word).toNat = f.toNat * 0x1000 + x.toNat * 0x100 + nn.toNat := by
  refine (toNat_append_add (f ++ x) nn).trans ?_
  rw [toNat_append_add]
  omega

theorem toNat_addressWord (f : BitVec 4) (nnn : BitVec 12) : (f ++ nnn : Word).toNat = f.toNat * 0x1000 + nnn.toNat :=
  toNat_append_add f nnn

/-- The first byte of an instruction is the high byte (20_memory.md R65). -/
theorem toNat_wordOfBytes (hi lo : Byte) : (wordOfBytes hi lo).toNat = hi.toNat * 256 + lo.toNat :=
  toNat_append_add hi lo

theorem toNat_fieldF (w : Word) : (fieldF w).toNat = w.toNat / 0x1000 := by
  have := w.isLt
  simp only [fieldF, BitVec.extractLsb'_toNat, Nat.shiftRight_eq_div_pow]
  omega

theorem toNat_fieldX (w : Word) : (fieldX w).toNat = w.toNat / 0x100 % 0x10 := by
  simp [fieldX, BitVec.extractLsb'_toNat, Nat.shiftRight_eq_div_pow]

theorem toNat_fieldY (w : Word) : (fieldY w).toNat = w.toNat / 0x10 % 0x10 := by
  simp [fieldY, BitVec.extractLsb'_toNat, Nat.shiftRight_eq_div_pow]

theorem toNat_fieldN (w : Word) : (fieldN w).toNat = w.toNat % 0x10 := by
  simp [fieldN, BitVec.extractLsb'_toNat]

theorem toNat_fieldNN (w : Word) : (fieldNN w).toNat = w.toNat % 0x100 := by
  simp [fieldNN, BitVec.extractLsb'_toNat]

theorem toNat_fieldNNN (w : Word) : (fieldNNN w).toNat = w.toNat % 0x1000 := by
  simp [fieldNNN, BitVec.extractLsb'_toNat]

theorem toNat_highByte (w : Word) : (highByte w).toNat = w.toNat / 0x100 := by
  have := w.isLt
  simp only [highByte, BitVec.extractLsb'_toNat, Nat.shiftRight_eq_div_pow]
  omega

theorem toNat_lowByte (w : Word) : (lowByte w).toNat = w.toNat % 0x100 := by
  simp [lowByte, BitVec.extractLsb'_toNat]

/-! The fields of a word put together -/

theorem fieldF_nibbles (f x y n : BitVec 4) : fieldF (f ++ x ++ y ++ n) = f := by
  apply BitVec.eq_of_toNat_eq; rw [toNat_fieldF, toNat_nibbles]; omega

theorem fieldX_nibbles (f x y n : BitVec 4) : fieldX (f ++ x ++ y ++ n) = x := by
  apply BitVec.eq_of_toNat_eq; rw [toNat_fieldX, toNat_nibbles]; omega

theorem fieldY_nibbles (f x y n : BitVec 4) : fieldY (f ++ x ++ y ++ n) = y := by
  apply BitVec.eq_of_toNat_eq; rw [toNat_fieldY, toNat_nibbles]; omega

theorem fieldN_nibbles (f x y n : BitVec 4) : fieldN (f ++ x ++ y ++ n) = n := by
  apply BitVec.eq_of_toNat_eq; rw [toNat_fieldN, toNat_nibbles]; omega

theorem fieldF_byteWord (f x : BitVec 4) (nn : BitVec 8) : fieldF (f ++ x ++ nn) = f := by
  apply BitVec.eq_of_toNat_eq; rw [toNat_fieldF, toNat_byteWord]; omega

theorem fieldX_byteWord (f x : BitVec 4) (nn : BitVec 8) : fieldX (f ++ x ++ nn) = x := by
  apply BitVec.eq_of_toNat_eq; rw [toNat_fieldX, toNat_byteWord]; omega

theorem fieldNN_byteWord (f x : BitVec 4) (nn : BitVec 8) : fieldNN (f ++ x ++ nn) = nn := by
  apply BitVec.eq_of_toNat_eq; rw [toNat_fieldNN, toNat_byteWord]; omega

theorem fieldF_addressWord (f : BitVec 4) (nnn : BitVec 12) : fieldF (f ++ nnn) = f := by
  apply BitVec.eq_of_toNat_eq; rw [toNat_fieldF, toNat_addressWord]; omega

theorem fieldNNN_addressWord (f : BitVec 4) (nnn : BitVec 12) : fieldNNN (f ++ nnn) = nnn := by
  apply BitVec.eq_of_toNat_eq; rw [toNat_fieldNNN, toNat_addressWord]; omega

/-! A word put together from its fields -/

theorem nibbles_of_word (w : Word) : fieldF w ++ fieldX w ++ fieldY w ++ fieldN w = w := by
  apply BitVec.eq_of_toNat_eq
  rw [toNat_nibbles, toNat_fieldF, toNat_fieldX, toNat_fieldY, toNat_fieldN]; omega

theorem byteWord_of_word (w : Word) : fieldF w ++ fieldX w ++ fieldNN w = w := by
  apply BitVec.eq_of_toNat_eq
  rw [toNat_byteWord, toNat_fieldF, toNat_fieldX, toNat_fieldNN]; omega

theorem addressWord_of_word (w : Word) : fieldF w ++ fieldNNN w = w := by
  apply BitVec.eq_of_toNat_eq
  rw [toNat_addressWord, toNat_fieldF, toNat_fieldNNN]; omega

/-- Storing a word's two bytes and putting them together again gives the word (20_memory.md R65). -/
theorem wordOfBytes_bytes (w : Word) : wordOfBytes (highByte w) (lowByte w) = w := by
  apply BitVec.eq_of_toNat_eq
  rw [toNat_wordOfBytes, toNat_highByte, toNat_lowByte]; omega

end Sys2Proof
end

