-- ==== Sys2Proof/Laws/Registers.lean ====
section
/-! SUPPORT. What every shared operation over registers, keypad and stack can do, said once each, and what the flag
computations and operand forms are as numbers. -/
namespace Sys2Proof.Machine

/-! General registers (10_state.md R31, R32) -/

theorem State.getV_setV (s : State) (x k : RegIdx) (b : Byte) :
    (s.setV x b).getV k = if k = x then b else s.getV k := by
  have h : x.toNat = k.toNat ↔ k = x := by rw [BitVec.toNat_inj, eq_comm]
  simp [State.getV, Vector.getElem_set, h]

/-- V[x] first and VF last, so VF holds the flag whatever `x` is (42_alu.md R170). -/
theorem State.getV_setVWithFlag (s : State) (x k : RegIdx) (b f : Byte) :
    (s.setVWithFlag x b f).getV k = if k = vf then f else if k = x then b else s.getV k := by
  rw [State.setVWithFlag, State.getV_setV, State.getV_setV]

theorem State.getV_loadRegs (s : State) (x k : RegIdx) (a : Nat) :
    (s.loadRegs x a).getV k = if k.toNat ≤ x.toNat then s.memByte (a + k.toNat) else s.getV k := by
  simp [State.getV, State.loadRegs]

theorem State.firstRegs_length (s : State) (x : RegIdx) : (s.firstRegs x).length = x.toNat + 1 := by
  simp only [State.firstRegs, List.length_take, Vector.length_toList]
  omega

theorem State.firstRegs_getElem (s : State) (x k : RegIdx) (h : k.toNat < (s.firstRegs x).length) :
    (s.firstRegs x)[k.toNat] = s.getV k := by
  simp [State.firstRegs, State.getV]

/-! Keypad (10_state.md R42) -/

theorem State.keyDown_setKeyAt (s : State) (j k : RegIdx) (p : Bool) :
    (s.setKeyAt k p).keyDown j = if j = k then p else s.keyDown j := by
  have h : k.toNat = j.toNat ↔ j = k := by rw [BitVec.toNat_inj, eq_comm]
  simp [State.keyDown, Vector.getElem_set, h]

/-- No key is found exactly when every key is released (45_input_timers.md R244). -/
theorem State.lowestKey_eq_none (s : State) : s.lowestKey = none ↔ ∀ k, s.keyDown k = false := by
  rw [State.lowestKey, List.findIdx?_eq_none_iff]
  constructor
  · intro h k
    exact h _ (by simp)
  · intro h b hb
    obtain ⟨n, hn, rfl⟩ := List.getElem_of_mem hb
    have hn' : n < 16 := by simpa using hn
    simpa [State.keyDown, Nat.mod_eq_of_lt hn'] using h (BitVec.ofNat 4 n)

/-- The key found is pressed and every smaller one is released (45_input_timers.md R244). -/
theorem State.lowestKey_eq_some (s : State) (k : RegIdx) :
    s.lowestKey = some k.toNat ↔ s.keyDown k = true ∧ ∀ j : RegIdx, j.toNat < k.toNat → s.keyDown j = false := by
  rw [State.lowestKey, List.findIdx?_eq_some_iff_getElem]
  constructor
  · rintro ⟨h, hk, hj⟩
    refine ⟨by simpa [State.keyDown] using hk, fun j hlt => ?_⟩
    simpa [State.keyDown] using hj j.toNat hlt
  · rintro ⟨hk, hj⟩
    refine ⟨by simpa using k.isLt, by simpa [State.keyDown] using hk, fun n hn => ?_⟩
    have hn' : n < 16 := by omega
    simpa [State.keyDown, Nat.mod_eq_of_lt hn'] using hj (BitVec.ofNat 4 n) (by simpa [Nat.mod_eq_of_lt hn'] using hn)

/-- A found key is a key of the keypad. -/
theorem State.lowestKey_lt (s : State) (k : Nat) (h : s.lowestKey = some k) : k < 16 := by
  rw [State.lowestKey, List.findIdx?_eq_some_iff_getElem] at h
  obtain ⟨h, -⟩ := h
  simpa using h

/-! Stack (10_state.md R37) -/

/-- A push succeeds below 16 entries, and then it stores the entry and raises SP. -/
theorem State.push_eq (s : State) (w : Word) (h : s.sp.val < 16) :
    s.push w = some { s with stack := s.stack.set s.sp.val w h, sp := ⟨s.sp.val + 1, Nat.succ_lt_succ h⟩ } := by
  simp [State.push, h]

theorem State.push_full (s : State) (w : Word) (h : s.sp.val = 16) : s.push w = none := by
  simp [State.push, h]

/-- A pop of a stack of `k + 1` entries answers entry `k` and lowers SP; the storage keeps its value. -/
theorem State.pop_eq (s : State) (k : Nat) (hk : k < 16) (h : s.sp.val = k + 1) :
    s.pop = some (s.stack[k], { s with sp := ⟨k, by omega⟩ }) := by
  obtain ⟨mem, v, i, pc, stack, ⟨n, hn⟩, dt, st, disp, key, e, l, r, d⟩ := s
  obtain rfl : n = k + 1 := h
  rfl

theorem State.pop_empty (s : State) (h : s.sp.val = 0) : s.pop = none := by
  obtain ⟨mem, v, i, pc, stack, ⟨n, hn⟩, dt, st, disp, key, e, l, r, d⟩ := s
  obtain rfl : n = 0 := h
  rfl

/-! PC (40_executor.md R121, R128) -/

theorem State.toNat_pcNext (s : State) : s.pcNext.toNat = (s.pc.toNat + 2) % 2 ^ 16 := by
  simp [State.pcNext, BitVec.toNat_add]

theorem State.toNat_skipTarget (s : State) (c : Bool) :
    (if c then s.pc + 4#16 else s.pcNext).toNat = (s.pc.toNat + if c then 4 else 2) % 2 ^ 16 := by
  cases c <;> simp [State.pcNext, BitVec.toNat_add]

/-! Flags and results (42_alu.md R183) -/

theorem toNat_sum8 (a b : Byte) : (sum8 a b).toNat = (a.toNat + b.toNat) % 256 := by simp [sum8]

theorem toNat_diff8 (a b : Byte) : (diff8 a b).toNat = (a.toNat + 256 - b.toNat) % 256 := by simp [diff8]

theorem toNat_shiftRight8 (a : Byte) : (shiftRight8 a).toNat = a.toNat / 2 := by
  have := a.isLt
  simp only [shiftRight8, BitVec.toNat_ofNat]
  omega

theorem toNat_shiftLeft8 (a : Byte) : (shiftLeft8 a).toNat = a.toNat * 2 % 256 := by simp [shiftLeft8]

theorem toNat_flagByte (c : Bool) : (flagByte c).toNat = if c = true then 1 else 0 := by cases c <;> rfl

theorem toNat_flag_shiftedOutLow (a : Byte) : (flagByte (shiftedOutLow a)).toNat = a.toNat % 2 := by
  revert a; decide

theorem toNat_flag_shiftedOutHigh (a : Byte) : (flagByte (shiftedOutHigh a)).toNat = a.toNat / 128 := by
  revert a; decide

/-! Operand forms -/

theorem toNat_zext16 (nnn : Addr) : (zext16 nnn).toNat = nnn.toNat := by
  have := nnn.isLt
  simp only [zext16, BitVec.toNat_ofNat]
  omega

theorem toNat_indexedTarget (nnn : Addr) (b : Byte) : (indexedTarget nnn b).toNat = nnn.toNat + b.toNat := by
  have := nnn.isLt
  have := b.isLt
  simp only [indexedTarget, BitVec.toNat_ofNat]
  omega

theorem toNat_indexPlus (i : Word) (b : Byte) : (indexPlus i b).toNat = (i.toNat + b.toNat) % 0x1000 := by
  simp only [indexPlus, BitVec.toNat_ofNat]
  omega

theorem toNat_lowNibble (b : Byte) : (lowNibble b).toNat = b.toNat % 16 := by
  simp [lowNibble, BitVec.extractLsb'_toNat]

theorem toNat_glyphAddr (d : RegIdx) : (glyphAddr d).toNat = 0x050 + 5 * d.toNat := by
  have := d.isLt
  simp only [glyphAddr, fontBase, fontGlyphBytes, BitVec.toNat_ofNat]
  omega

end Sys2Proof.Machine
end

