-- ==== Sys2Proof/Laws/Screen.lean ====
section
/-! SUPPORT. What drawing can do to a cell: the pixel, the row and the whole sprite (44_display.md R222). -/
namespace Sys2Proof.Machine

/-- Inverting one cell leaves every other cell alone. -/
theorem cellAt_flipCell (d : Display) (x y cx cy : Nat) :
    cellAt (flipCell d x y) cx cy = (cellAt d cx cy ^^ decide (cx % 64 = x % 64 ∧ cy % 32 = y % 32)) := by
  by_cases hy : cy % 32 = y % 32
  · by_cases hx : cx % 64 = x % 64
    · simp [cellAt, flipCell, hx, hy]
    · simp [cellAt, flipCell, hx, hy, Ne.symm hx]
  · simp [cellAt, flipCell, hy, Ne.symm hy]

/-- Two displays with the same cells are the same display. -/
theorem display_ext {d e : Display} (h : ∀ (x : Fin 64) (y : Fin 32), cellAt d x y = cellAt e x y) : d = e := by
  apply Vector.ext
  intro y hy
  apply Vector.ext
  intro x hx
  simpa [cellAt, Nat.mod_eq_of_lt hx, Nat.mod_eq_of_lt hy] using h ⟨x, hx⟩ ⟨y, hy⟩

theorem spriteBit_eq (row : Byte) (c : Nat) : spriteBit row c = true ↔ row.toNat / 2 ^ (7 - c) % 2 = 1 := by
  simp [spriteBit, BitVec.getLsbD, Nat.testBit_eq_decide_div_mod_eq]

/-- Pixel `c` of a row is a 1 bit and falls on the cell (`cx`, `cy`). -/
def PixelOn (row : Byte) (x0 y c cx cy : Nat) : Prop :=
  spriteBit row c = true ∧ cx % 64 = (x0 + c) % 64 ∧ cy % 32 = y % 32

/-- One of the first `m` pixels of a row falls on the cell. -/
def RowOn (row : Byte) (x0 y m cx cy : Nat) : Prop := ∃ c < m, PixelOn row x0 y c cx cy

/-- One of the first `n` rows of the sprite at I falls on the cell. -/
def RowsOn (s : State) (x0 y0 n cx cy : Nat) : Prop :=
  ∃ r < n, RowOn (s.memByte (s.base + r)) x0 (y0 + r) 8 cx cy

theorem RowOn_succ (row : Byte) (x0 y m cx cy : Nat) :
    RowOn row x0 y (m + 1) cx cy ↔ RowOn row x0 y m cx cy ∨ PixelOn row x0 y m cx cy := by
  simp only [RowOn, Nat.lt_succ_iff_lt_or_eq]
  constructor
  · rintro ⟨c, hc | rfl, h⟩
    · exact .inl ⟨c, hc, h⟩
    · exact .inr h
  · rintro (⟨c, hc, h⟩ | h)
    · exact ⟨c, .inl hc, h⟩
    · exact ⟨m, .inr rfl, h⟩

theorem RowsOn_succ (s : State) (x0 y0 n cx cy : Nat) :
    RowsOn s x0 y0 (n + 1) cx cy
      ↔ RowsOn s x0 y0 n cx cy ∨ RowOn (s.memByte (s.base + n)) x0 (y0 + n) 8 cx cy := by
  simp only [RowsOn, Nat.lt_succ_iff_lt_or_eq]
  constructor
  · rintro ⟨r, hr | rfl, h⟩
    · exact .inl ⟨r, hr, h⟩
    · exact .inr h
  · rintro (⟨r, hr, h⟩ | h)
    · exact ⟨r, .inl hr, h⟩
    · exact ⟨n, .inr rfl, h⟩

/-- What drawing does to a canvas when the cells it reaches are those of `On`: they are inverted, the others kept,
and the collision is recorded exactly when one of them was on. -/
def Draws (On : Nat → Nat → Prop) (p q : Canvas) : Prop :=
  (∀ cx cy, (On cx cy → cellAt q.1 cx cy = !cellAt p.1 cx cy) ∧ (¬ On cx cy → cellAt q.1 cx cy = cellAt p.1 cx cy))
    ∧ (q.2 = true ↔ p.2 = true ∨ ∃ cx cy, On cx cy ∧ cellAt p.1 cx cy = true)

theorem Draws.nothing {On : Nat → Nat → Prop} (h : ∀ cx cy, ¬ On cx cy) (p : Canvas) : Draws On p p :=
  ⟨fun cx cy => ⟨fun ho => absurd ho (h cx cy), fun _ => rfl⟩, by simp [h]⟩

/-- Drawing one set of cells and then another, with no cell in both, is drawing their union. -/
theorem Draws.trans {A B C : Nat → Nat → Prop} {p q r : Canvas} (hp : Draws A p q) (hq : Draws B q r)
    (hd : ∀ cx cy, A cx cy → ¬ B cx cy) (hu : ∀ cx cy, C cx cy ↔ A cx cy ∨ B cx cy) : Draws C p r := by
  refine ⟨fun cx cy => ?_, ?_⟩
  · have h1 := hp.1 cx cy
    have h2 := hq.1 cx cy
    have h3 := hd cx cy
    have h4 := hu cx cy
    by_cases a : A cx cy <;> by_cases b : B cx cy <;> simp_all
  · rw [hq.2, hp.2]
    constructor
    · rintro ((h | ⟨cx, cy, ha, hc⟩) | ⟨cx, cy, hb, hc⟩)
      · exact .inl h
      · exact .inr ⟨cx, cy, (hu cx cy).2 (.inl ha), hc⟩
      · have hna : ¬ A cx cy := fun ha => hd cx cy ha hb
        exact .inr ⟨cx, cy, (hu cx cy).2 (.inr hb), by rw [← (hp.1 cx cy).2 hna]; exact hc⟩
    · rintro (h | ⟨cx, cy, hc, hon⟩)
      · exact .inl (.inl h)
      · rcases (hu cx cy).1 hc with ha | hb
        · exact .inl (.inr ⟨cx, cy, ha, hon⟩)
        · have hna : ¬ A cx cy := fun ha => hd cx cy ha hb
          exact .inr ⟨cx, cy, hb, by rw [(hp.1 cx cy).2 hna]; exact hon⟩

/-- One pixel inverts its cell when its bit is 1. -/
theorem drawPixel_draws (row : Byte) (x0 y c : Nat) (p : Canvas) :
    Draws (PixelOn row x0 y c) p (drawPixel row x0 y p c) := by
  by_cases hb : spriteBit row c = true
  · refine ⟨fun cx cy => ?_, ?_⟩
    · simp only [drawPixel, hb, if_true, PixelOn, true_and, cellAt_flipCell]
      constructor
      · intro h; simp [h]
      · intro h; simp only [h, decide_false, Bool.xor_false]
    · simp only [drawPixel, hb, if_true, PixelOn, true_and, Bool.or_eq_true]
      constructor
      · rintro (h | h)
        · exact .inl h
        · exact .inr ⟨x0 + c, y, ⟨rfl, rfl⟩, h⟩
      · rintro (h | ⟨cx, cy, ⟨hx, hy⟩, h⟩)
        · exact .inl h
        · exact .inr (by simpa [cellAt, hx, hy] using h)
  · have : drawPixel row x0 y p c = p := by simp [drawPixel, hb]
    rw [this]
    exact Draws.nothing (fun cx cy h => hb h.1) p

theorem drawPixels_draw (row : Byte) (x0 y m : Nat) (hm : m ≤ 8) (p : Canvas) :
    Draws (RowOn row x0 y m) p ((List.range m).foldl (drawPixel row x0 y) p) := by
  induction m with
  | zero => exact Draws.nothing (fun cx cy ⟨c, hc, _⟩ => absurd hc (Nat.not_lt_zero c)) p
  | succ m ih =>
    rw [List.range_succ, List.foldl_append]
    refine (ih (by omega)).trans (drawPixel_draws row x0 y m _) ?_ (RowOn_succ row x0 y m)
    rintro cx cy ⟨c, hc, -, hx, -⟩ ⟨-, hx', -⟩
    omega

/-- One row of a sprite (44_display.md R222). -/
theorem drawRow_draws (row : Byte) (x0 y : Nat) (p : Canvas) : Draws (RowOn row x0 y 8) p (drawRow row x0 y p) :=
  drawPixels_draw row x0 y 8 le_rfl p

/-- The whole sprite: at most 32 rows, so no cell is reached twice (44_display.md R222, R224). -/
theorem State.drawRows_draw (s : State) (x0 y0 n : Nat) (hn : n ≤ 32) :
    Draws (RowsOn s x0 y0 n) (s.disp, false) (s.drawRows x0 y0 n) := by
  induction n with
  | zero => exact Draws.nothing (fun cx cy ⟨r, hr, _⟩ => absurd hr (Nat.not_lt_zero r)) _
  | succ n ih =>
    rw [State.drawRows, List.range_succ, List.foldl_append]
    refine (ih (by omega)).trans (drawRow_draws _ x0 (y0 + n) _) ?_ (RowsOn_succ s x0 y0 n)
    rintro cx cy ⟨r, hr, c, hc, -, -, hy⟩ ⟨c', hc', -, -, hy'⟩
    omega

end Sys2Proof.Machine
end

