-- ==== Sys2Proof/Laws/Frame.lean ====
section
/-! SUPPORT. How a step ends, and which parts each shared operation can change: the lemmas the statements' frames
are assembled from. -/
namespace Sys2Proof.Machine

/-! The ways a step ends (60_exceptions.md R260) -/

theorem completeAt_eq (s : State) (w : Word) : s.completeAt w = .next ((s.setPc w).setReport .normal) := rfl

theorem complete_eq (s : State) : s.complete = .next ((s.setPc s.pcNext).setReport .normal) := rfl

theorem skipIf_eq (s : State) (c : Bool) :
    s.skipIf c = .next ((s.setPc (if c then s.pc + 4#16 else s.pcNext)).setReport .normal) := rfl

theorem waitForKey_eq (s : State) : s.waitForKey = .next ((s.setExec .awaitingKey).setReport .waitingForKey) := rfl

theorem unknownOpcode_eq (s : State) (w : Word) :
    s.unknownOpcode w = .next ((s.setPc s.pcNext).setReport (.unknownOpcode w)) := rfl

/-- An instruction that ends in `completeAt` completes: all that is left is its frame and its result. -/
theorem Completes.of_completeAt {i : Instr} {s u : State} {w : Word} {ps : List Part} {post : State → Prop}
    (h : exec i s = u.completeAt w) (hf : SameBut (.pc :: .report :: ps) s u)
    (hp : post ((u.setPc w).setReport .normal)) : Completes i s ps post := by
  refine ⟨_, h, rfl, fun p hp => ?_, hp⟩
  have := hf p hp
  cases p <;> first | exact this | simp at hp

/-- An instruction that ends in `complete` advances PC by 2, when what it did before left PC alone. -/
theorem Completes.of_complete {i : Instr} {s u : State} {ps : List Part} {post : State → Prop}
    (h : exec i s = u.complete) (hpc : u.pc = s.pc) (hf : SameBut (.pc :: .report :: ps) s u)
    (hp : ∀ t, t = (u.setPc u.pcNext).setReport .normal → Advanced 2 s t → post t) : Completes i s ps post :=
  .of_completeAt h hf (hp _ rfl (by simp [Advanced, State.toNat_pcNext, hpc]))

/-- A skip changes PC alone, by 4 when its condition holds and by 2 otherwise (40_executor.md R128). -/
theorem Completes.of_skipIf {i : Instr} {s : State} {c : Bool} {n : Nat} (h : exec i s = s.skipIf c)
    (hn : n = if c = true then 4 else 2) : Completes i s [] fun t => Advanced n s t :=
  .of_completeAt h (fun p _ => by cases p <;> simp [Agree]) (by
    subst hn
    cases c <;> simp [Advanced, State.pcNext, BitVec.toNat_add])

/-! Which parts each update changes -/

theorem SameBut.refl (ps : List Part) (s : State) : SameBut ps s s := fun p _ => by cases p <;> simp [Agree]

theorem SameBut.mono {ps qs : List Part} {s t : State} (h : SameBut ps s t) (hs : ∀ p ∈ ps, p ∈ qs) :
    SameBut qs s t := fun p hp => h p fun hp' => hp (hs p hp')

theorem SameBut.trans {ps : List Part} {s t u : State} (h : SameBut ps s t) (h' : SameBut ps t u) :
    SameBut ps s u := fun p hp => by
  have a := h p hp
  have b := h' p hp
  cases p <;> simp only [Agree] at a b ⊢ <;> first | exact b.trans a | (intro k; exact (b k).trans (a k))

theorem sameBut_setByte (s : State) (a : Nat) (b : Byte) : SameBut [.mem] s (s.setByte a b) := fun p hp => by
  cases p <;> first | (exfalso; apply hp; decide) | exact rfl | exact fun _ => rfl

theorem sameBut_storeBytes (bs : List Byte) (s : State) (a : Nat) : SameBut [.mem] s (s.storeBytes a bs) := by
  induction bs generalizing s a with
  | nil => exact SameBut.refl _ s
  | cons b bs ih => exact (sameBut_setByte s a b).trans (ih _ _)

theorem sameBut_setV (s : State) (x : RegIdx) (b : Byte) : SameBut [.v] s (s.setV x b) := fun p hp => by
  cases p <;> first | (exfalso; apply hp; decide) | exact rfl | exact fun _ => rfl

theorem sameBut_setVWithFlag (s : State) (x : RegIdx) (b f : Byte) : SameBut [.v] s (s.setVWithFlag x b f) :=
  (sameBut_setV s x b).trans (sameBut_setV _ vf f)

theorem sameBut_loadRegs (s : State) (x : RegIdx) (a : Nat) : SameBut [.v] s (s.loadRegs x a) := fun p hp => by
  cases p <;> first | (exfalso; apply hp; decide) | simp [Agree, State.memByte]

theorem sameBut_nextDraw (s : State) : SameBut [.draws] s s.nextDraw := fun p hp => by
  cases p <;> first | (exfalso; apply hp; decide) | exact rfl | exact fun _ => rfl

theorem sameBut_setI (s : State) (w : Word) : SameBut [.i] s (s.setI w) := fun p hp => by
  cases p <;> first | (exfalso; apply hp; decide) | exact rfl | exact fun _ => rfl

theorem sameBut_setPc (s : State) (w : Word) : SameBut [.pc] s (s.setPc w) := fun p hp => by
  cases p <;> first | (exfalso; apply hp; decide) | exact rfl | exact fun _ => rfl

theorem sameBut_setDt (s : State) (b : Byte) : SameBut [.dt] s (s.setDt b) := fun p hp => by
  cases p <;> first | (exfalso; apply hp; decide) | exact rfl | exact fun _ => rfl

theorem sameBut_setSt (s : State) (b : Byte) : SameBut [.st] s (s.setSt b) := fun p hp => by
  cases p <;> first | (exfalso; apply hp; decide) | exact rfl | exact fun _ => rfl

theorem sameBut_setDisp (s : State) (d : Display) : SameBut [.disp] s (s.setDisp d) := fun p hp => by
  cases p <;> first | (exfalso; apply hp; decide) | exact rfl | exact fun _ => rfl

theorem sameBut_paint (s : State) (c : Canvas) : SameBut [.v, .disp] s (s.paint c) :=
  ((sameBut_setDisp s c.1).mono (by simp)).trans ((sameBut_setV _ vf (flagByte c.2)).mono (by simp))

theorem sameBut_setExec (s : State) (e : ExecState) : SameBut [.exec] s (s.setExec e) := fun p hp => by
  cases p <;> first | (exfalso; apply hp; decide) | exact rfl | exact fun _ => rfl

theorem sameBut_setLoaded (s : State) (b : Bool) : SameBut [.loaded] s (s.setLoaded b) := fun p hp => by
  cases p <;> first | (exfalso; apply hp; decide) | exact rfl | exact fun _ => rfl

theorem sameBut_setReport (s : State) (r : StepReport) : SameBut [.report] s (s.setReport r) := fun p hp => by
  cases p <;> first | (exfalso; apply hp; decide) | exact rfl | exact fun _ => rfl

theorem sameBut_setKeyAt (s : State) (k : RegIdx) (b : Bool) : SameBut [.key] s (s.setKeyAt k b) := fun p hp => by
  cases p <;> first | (exfalso; apply hp; decide) | exact rfl | exact fun _ => rfl

theorem sameBut_push (s t : State) (w : Word) (h : s.push w = some t) : SameBut [.stack, .sp] s t := by
  unfold State.push at h
  split at h
  · cases h
    intro p hp
    cases p <;> first | (exfalso; apply hp; decide) | exact rfl | exact fun _ => rfl
  · cases h

theorem sameBut_pop (s t : State) (w : Word) (h : s.pop = some (w, t)) : SameBut [.sp] s t := by
  unfold State.pop at h
  split at h
  · cases h
  · cases h
    intro p hp
    cases p <;> first | (exfalso; apply hp; decide) | exact rfl | exact fun _ => rfl

/-! Fetch depends on memory and PC alone -/

theorem fetchWord_congr {s t : State} (hm : ∀ a, t.memByte a = s.memByte a) (hp : t.pc = s.pc) :
    t.fetchWord = s.fetchWord := by
  simp [State.fetchWord, hm, hp]

end Sys2Proof.Machine
end

