-- ==== Sys2Proof/Laws/Exec.lean ====
section
/-! SUPPORT. Said once: everything a step and an instruction can do. Statements about every instruction are derived
from these two inversions, without unfolding `exec` again. -/
namespace Sys2Proof.Machine

/-- What the instruction has done to the state (`u`) and the PC it goes to (`w`) when it completes. -/
def Effect (i : Instr) (s u : State) (w : Word) : Prop :=
  match i with
  | .cls => u = s.setDisp clearDisplay ∧ w = s.pcNext
  | .ret => s.pop = some (w, u)
  | .jp nnn => u = s ∧ w = zext16 nnn
  | .call nnn => s.push s.pcNext = some u ∧ w = zext16 nnn
  | .seVxNn x nn => u = s ∧ w = if s.getV x == nn then s.pc + 4#16 else s.pcNext
  | .sneVxNn x nn => u = s ∧ w = if s.getV x != nn then s.pc + 4#16 else s.pcNext
  | .seVxVy x y => u = s ∧ w = if s.getV x == s.getV y then s.pc + 4#16 else s.pcNext
  | .ldVxNn x nn => u = s.setV x nn ∧ w = s.pcNext
  | .addVxNn x nn => u = s.setV x (sum8 (s.getV x) nn) ∧ w = s.pcNext
  | .ldVxVy x y => u = s.setV x (s.getV y) ∧ w = s.pcNext
  | .orVxVy x y => u = s.setV x (s.getV x ||| s.getV y) ∧ w = s.pcNext
  | .andVxVy x y => u = s.setV x (s.getV x &&& s.getV y) ∧ w = s.pcNext
  | .xorVxVy x y => u = s.setV x (s.getV x ^^^ s.getV y) ∧ w = s.pcNext
  | .addVxVy x y =>
    u = s.setVWithFlag x (sum8 (s.getV x) (s.getV y)) (flagByte (carry (s.getV x) (s.getV y))) ∧ w = s.pcNext
  | .subVxVy x y =>
    u = s.setVWithFlag x (diff8 (s.getV x) (s.getV y)) (flagByte (notBorrow (s.getV x) (s.getV y))) ∧ w = s.pcNext
  | .shrVx x _ => u = s.setVWithFlag x (shiftRight8 (s.getV x)) (flagByte (shiftedOutLow (s.getV x))) ∧ w = s.pcNext
  | .subnVxVy x y =>
    u = s.setVWithFlag x (diff8 (s.getV y) (s.getV x)) (flagByte (notBorrow (s.getV y) (s.getV x))) ∧ w = s.pcNext
  | .shlVx x _ => u = s.setVWithFlag x (shiftLeft8 (s.getV x)) (flagByte (shiftedOutHigh (s.getV x))) ∧ w = s.pcNext
  | .sneVxVy x y => u = s ∧ w = if s.getV x != s.getV y then s.pc + 4#16 else s.pcNext
  | .ldINnn nnn => u = s.setI (zext16 nnn) ∧ w = s.pcNext
  | .jpV0 nnn => u = s ∧ w = indexedTarget nnn (s.getV 0x0#4)
  | .rnd x nn => u = s.nextDraw.setV x (s.drawnByte &&& nn) ∧ w = s.pcNext
  | .drw x y n =>
    u = s.paint (s.drawRows ((s.getV x).toNat % Config.dispW) ((s.getV y).toNat % Config.dispH) n.toNat) ∧ w = s.pcNext
  | .skp x => u = s ∧ w = if s.keyDown (lowNibble (s.getV x)) then s.pc + 4#16 else s.pcNext
  | .sknp x => u = s ∧ w = if !s.keyDown (lowNibble (s.getV x)) then s.pc + 4#16 else s.pcNext
  | .ldVxDt x => u = s.setV x s.dt ∧ w = s.pcNext
  | .ldVxK x => ∃ k, s.lowestKey = some k ∧ u = (s.setV x (BitVec.ofNat 8 k)).setExec .running ∧ w = s.pcNext
  | .ldDtVx x => u = s.setDt (s.getV x) ∧ w = s.pcNext
  | .ldStVx x => u = s.setSt (s.getV x) ∧ w = s.pcNext
  | .addIVx x => u = s.setI (indexPlus s.i (s.getV x)) ∧ w = s.pcNext
  | .ldFVx x => u = s.setI (glyphAddr (lowNibble (s.getV x))) ∧ w = s.pcNext
  | .ldBVx x => u = s.storeBytes s.base (decimalDigits (s.getV x)) ∧ w = s.pcNext
  | .ldMemVx x => u = s.storeBytes s.base (s.firstRegs x) ∧ w = s.pcNext
  | .ldVxMem x => u = s.loadRegs x s.base ∧ w = s.pcNext

/-- A completion with the default advance, seen as a next state. -/
theorem effect_of_complete {s u t : State} (h : u.complete = .next t) (hp : u.pc = s.pc) :
    t = (u.setPc s.pcNext).setReport .normal := by
  rw [complete_eq] at h
  injection h with h
  rw [← h, State.pcNext, State.pcNext, hp]

theorem effect_of_completeAt {u t : State} {w : Word} (h : u.completeAt w = .next t) :
    t = (u.setPc w).setReport .normal := by
  rw [completeAt_eq] at h
  injection h with h
  exact h.symm

theorem storeBytes_pc (s : State) (a : Nat) (bs : List Byte) : (s.storeBytes a bs).pc = s.pc := by
  rw [State.storeBytes_only_mem]

/-- Everything an instruction that answers a next state can do: FX0A waits, or the instruction completes with its
effect, PC written last and the report Normal. -/
theorem exec_cases {i : Instr} {s t : State} (h : exec i s = .next t) :
    (∃ x, i = .ldVxK x ∧ s.lowestKey = none ∧ t = (s.setExec .awaitingKey).setReport .waitingForKey)
      ∨ ∃ u w, Effect i s u w ∧ t = (u.setPc w).setReport .normal := by
  cases i
  case ret =>
    simp only [exec, execRet] at h
    split at h
    · rename_i w u hp
      exact .inr ⟨u, w, hp, effect_of_completeAt h⟩
    · cases h
  case call nnn =>
    simp only [exec, execCall] at h
    split at h
    · rename_i u hp
      exact .inr ⟨u, zext16 nnn, ⟨hp, rfl⟩, effect_of_completeAt h⟩
    · cases h
  case ldVxK x =>
    simp only [exec, execLdVxK] at h
    split at h
    · rename_i hk
      rw [waitForKey_eq] at h
      injection h with h
      exact .inl ⟨x, rfl, hk, h.symm⟩
    · rename_i k hk
      exact .inr ⟨_, _, ⟨k, hk, rfl, rfl⟩, effect_of_complete h rfl⟩
  case jp nnn => exact .inr ⟨s, _, ⟨rfl, rfl⟩, effect_of_completeAt h⟩
  case jpV0 nnn => exact .inr ⟨s, _, ⟨rfl, rfl⟩, effect_of_completeAt h⟩
  case seVxNn x nn => exact .inr ⟨s, _, ⟨rfl, rfl⟩, effect_of_completeAt h⟩
  case sneVxNn x nn => exact .inr ⟨s, _, ⟨rfl, rfl⟩, effect_of_completeAt h⟩
  case seVxVy x y => exact .inr ⟨s, _, ⟨rfl, rfl⟩, effect_of_completeAt h⟩
  case sneVxVy x y => exact .inr ⟨s, _, ⟨rfl, rfl⟩, effect_of_completeAt h⟩
  case skp x => exact .inr ⟨s, _, ⟨rfl, rfl⟩, effect_of_completeAt h⟩
  case sknp x => exact .inr ⟨s, _, ⟨rfl, rfl⟩, effect_of_completeAt h⟩
  case ldBVx x => exact .inr ⟨_, _, ⟨rfl, rfl⟩, effect_of_complete h (storeBytes_pc _ _ _)⟩
  case ldMemVx x => exact .inr ⟨_, _, ⟨rfl, rfl⟩, effect_of_complete h (storeBytes_pc _ _ _)⟩
  all_goals exact .inr ⟨_, _, ⟨rfl, rfl⟩, effect_of_complete h rfl⟩

/-- Everything a step that answers a next state can do: run the decoded instruction, or report an unknown word. -/
theorem step_cases {s t : State} (h : step s = .next t) :
    s.loaded = true ∧
      ((∃ i, decode s.fetchWord = .instr i ∧ exec i s = .next t)
        ∨ ∃ w, decode s.fetchWord = .unknown w ∧ t = (s.setPc s.pcNext).setReport (.unknownOpcode w)) := by
  unfold step at h
  split at h
  · rename_i hl
    refine ⟨hl, ?_⟩
    split at h
    · rename_i i hd
      exact .inl ⟨i, hd, h⟩
    · rename_i w hd
      rw [unknownOpcode_eq] at h
      injection h with h
      exact .inr ⟨w, hd, h.symm⟩
  · cases h

end Sys2Proof.Machine
end

