-- ==== Sys2Proof/Laws/Host.lean ====
section
/-! SUPPORT. What the host's operations can do: construction with any font, and the counted runs of
40_executor.md R130. -/
namespace Sys2Proof.Machine

/-- Construction writes memory alone. -/
theorem sameBut_construct (glyphs : FontTable) : SameBut [.mem] State.reset (construct glyphs) :=
  sameBut_storeBytes _ _ _

/-- Construction keeps memory canonical, whatever `FONT` is. -/
theorem wf_construct (glyphs : FontTable) : Memory.wf (construct glyphs).mem = true :=
  State.wf_storeBytes _ _ _ rfl

/-- Glyph byte `k` stands at `FONT_BASE + k`. -/
theorem memByte_construct_font (glyphs : FontTable) (k : Nat) (h : k < 80) :
    (construct glyphs).memByte (fontBase + k) = glyphs[k] := by
  rw [construct, State.memByte_storeBytes_inside _ _ _ _ (by simpa using h) (by simp)]
  simp

/-- Outside the font construction leaves what reset leaves. -/
theorem memByte_construct_outside (glyphs : FontTable) (a : Nat)
    (h : ∀ k, k < 80 → a % 4096 ≠ (fontBase + k) % 4096) : (construct glyphs).memByte a = State.reset.memByte a :=
  State.memByte_storeBytes_outside _ _ _ _ (by simpa using h)

/-- Storing over an empty list what it already reads as lists nothing: the canonical form. -/
theorem State.storeBytes_initial (bs : List Byte) (s : State) (a : Nat) (hm : s.mem = [])
    (h : ∀ (k : Nat) (hk : k < bs.length), bs[k] = initialByte (wrapAddr (a + k))) : s.storeBytes a bs = s := by
  induction bs generalizing a with
  | nil => rfl
  | cons b bs ih =>
    have hb : b = initialByte (wrapAddr a) := h 0 (Nat.zero_lt_succ _)
    have hs : s.setByte a b = s := by
      rw [State.setByte, Memory.write, if_pos hb, hm, Memory.erase, ← hm]
    rw [State.storeBytes, hs]
    refine ih (a + 1) fun k hk => ?_
    have := h (k + 1) (by simpa using hk)
    rwa [Nat.add_assoc, Nat.add_comm 1 k]

/-- The counted reports are Normal and UnknownOpcode. -/
theorem StepReport.counts_iff (r : StepReport) : r.counts = true ↔ r = .normal ∨ ∃ w, r = .unknownOpcode w := by
  cases r <;> simp [StepReport.counts]

/-- Everything one operation of an observed run can do. -/
theorem countedEvent_eq_some (e : Event) (s t : State) :
    countedEvent e s = some t ↔ applyEvent e s = .next t ∧ (e = .step → t.report.counts = true) := by
  unfold countedEvent
  cases applyEvent e s with
  | fault r => simp
  | refused r => simp
  | next u =>
    simp only [Option.ite_none_left_eq_some, Option.some.injEq, Host.Outcome.next.injEq]
    constructor
    · rintro ⟨h, rfl⟩
      exact ⟨rfl, fun he => by simpa [he] using h⟩
    · rintro ⟨rfl, h⟩
      exact ⟨fun hc => by simp [h hc.1] at hc, rfl⟩

/-- An observed run one operation at a time. -/
theorem runCounted_cons (e : Event) (es : List Event) (s t : State) :
    runCounted (e :: es) s = some t ↔ ∃ u, countedEvent e s = some u ∧ runCounted es u = some t := by
  rw [runCounted]
  cases countedEvent e s <;> simp

/-- A schedule one operation at a time. -/
theorem runSchedule_cons (e : Event) (es : List Event) (s t : State) :
    runSchedule (e :: es) s = .next t ↔ ∃ u, applyEvent e s = .next u ∧ runSchedule es u = .next t := by
  rw [runSchedule]
  cases applyEvent e s <;> simp

end Sys2Proof.Machine
end

