-- ==== Sys2Proof/Laws/PerInstr.lean ====
section
/-! SUPPORT. The family `RowBits`: the word of an instruction carries the fixed bits of its own row of the opcode map
(30_encoding.md R96), whatever its operands. One lemma per constructor. -/
namespace Sys2Proof.Laws.RowBits

/-- The encoded word matches a row of the opcode map that bears the instruction's mnemonic. -/
def Statement (i : Instr) : Prop := ∃ r ∈ opcodeMap, r.mnemonic = i.mnemonic ∧ encode i &&& r.mask = r.bits

/-! The fixed bits of each shape of word -/

theorem and_F (f : BitVec 4) : f &&& 0xF#4 = f := BitVec.and_allOnes

theorem and_FF (b : BitVec 8) : b &&& 0xFF#8 = b := BitVec.and_allOnes

theorem family_of_address (f : BitVec 4) (nnn : BitVec 12) : (f ++ nnn : Word) &&& 0xF000#16 = f ++ 0x000#12 := by
  rw [show (0xF000#16 : Word) = 0xF#4 ++ 0x000#12 from rfl]
  refine BitVec.and_append.trans ?_
  simp [and_F]

theorem family_of_byte (f x : BitVec 4) (nn : BitVec 8) : (f ++ x ++ nn : Word) &&& 0xF000#16 = f ++ 0x0#4 ++ 0x00#8 := by
  rw [show (0xF000#16 : Word) = 0xF#4 ++ 0x0#4 ++ 0x00#8 from rfl]
  refine BitVec.and_append.trans ?_
  rw [BitVec.and_append]
  simp [and_F]

theorem family_of_nibbles (f x y n : BitVec 4) : (f ++ x ++ y ++ n : Word) &&& 0xF000#16 = f ++ 0x0#4 ++ 0x0#4 ++ 0x0#4 := by
  rw [show (0xF000#16 : Word) = 0xF#4 ++ 0x0#4 ++ 0x0#4 ++ 0x0#4 from rfl]
  refine BitVec.and_append.trans ?_
  rw [BitVec.and_append, BitVec.and_append]
  simp [and_F]

theorem ends_of_nibbles (f x y n : BitVec 4) : (f ++ x ++ y ++ n : Word) &&& 0xF00F#16 = f ++ 0x0#4 ++ 0x0#4 ++ n := by
  rw [show (0xF00F#16 : Word) = 0xF#4 ++ 0x0#4 ++ 0x0#4 ++ 0xF#4 from rfl]
  refine BitVec.and_append.trans ?_
  rw [BitVec.and_append, BitVec.and_append]
  simp [and_F]

theorem ends_of_byte (f x : BitVec 4) (nn : BitVec 8) : (f ++ x ++ nn : Word) &&& 0xF0FF#16 = f ++ 0x0#4 ++ nn := by
  rw [show (0xF0FF#16 : Word) = 0xF#4 ++ 0x0#4 ++ 0xFF#8 from rfl]
  refine BitVec.and_append.trans ?_
  rw [BitVec.and_append]
  simp [and_F, and_FF]

/-! One lemma per instruction -/

theorem cls : Statement .cls :=
  ⟨⟨"CLS", 0x00E0#16, 0xFFFF#16⟩, by decide, rfl, rfl⟩

theorem ret : Statement .ret :=
  ⟨⟨"RET", 0x00EE#16, 0xFFFF#16⟩, by decide, rfl, rfl⟩

theorem jp (nnn : Addr) : Statement (.jp nnn) :=
  ⟨⟨"JP", 0x1000#16, 0xF000#16⟩, by decide, rfl, family_of_address _ _⟩

theorem call (nnn : Addr) : Statement (.call nnn) :=
  ⟨⟨"CALL", 0x2000#16, 0xF000#16⟩, by decide, rfl, family_of_address _ _⟩

theorem seVxNn (x : RegIdx) (nn : Byte) : Statement (.seVxNn x nn) :=
  ⟨⟨"SE_VX_NN", 0x3000#16, 0xF000#16⟩, by decide, rfl, family_of_byte _ _ _⟩

theorem sneVxNn (x : RegIdx) (nn : Byte) : Statement (.sneVxNn x nn) :=
  ⟨⟨"SNE_VX_NN", 0x4000#16, 0xF000#16⟩, by decide, rfl, family_of_byte _ _ _⟩

theorem seVxVy (x y : RegIdx) : Statement (.seVxVy x y) :=
  ⟨⟨"SE_VX_VY", 0x5000#16, 0xF00F#16⟩, by decide, rfl, ends_of_nibbles _ _ _ _⟩

theorem ldVxNn (x : RegIdx) (nn : Byte) : Statement (.ldVxNn x nn) :=
  ⟨⟨"LD_VX_NN", 0x6000#16, 0xF000#16⟩, by decide, rfl, family_of_byte _ _ _⟩

theorem addVxNn (x : RegIdx) (nn : Byte) : Statement (.addVxNn x nn) :=
  ⟨⟨"ADD_VX_NN", 0x7000#16, 0xF000#16⟩, by decide, rfl, family_of_byte _ _ _⟩

theorem ldVxVy (x y : RegIdx) : Statement (.ldVxVy x y) :=
  ⟨⟨"LD_VX_VY", 0x8000#16, 0xF00F#16⟩, by decide, rfl, ends_of_nibbles _ _ _ _⟩

theorem orVxVy (x y : RegIdx) : Statement (.orVxVy x y) :=
  ⟨⟨"OR", 0x8001#16, 0xF00F#16⟩, by decide, rfl, ends_of_nibbles _ _ _ _⟩

theorem andVxVy (x y : RegIdx) : Statement (.andVxVy x y) :=
  ⟨⟨"AND", 0x8002#16, 0xF00F#16⟩, by decide, rfl, ends_of_nibbles _ _ _ _⟩

theorem xorVxVy (x y : RegIdx) : Statement (.xorVxVy x y) :=
  ⟨⟨"XOR", 0x8003#16, 0xF00F#16⟩, by decide, rfl, ends_of_nibbles _ _ _ _⟩

theorem addVxVy (x y : RegIdx) : Statement (.addVxVy x y) :=
  ⟨⟨"ADD_VX_VY", 0x8004#16, 0xF00F#16⟩, by decide, rfl, ends_of_nibbles _ _ _ _⟩

theorem subVxVy (x y : RegIdx) : Statement (.subVxVy x y) :=
  ⟨⟨"SUB", 0x8005#16, 0xF00F#16⟩, by decide, rfl, ends_of_nibbles _ _ _ _⟩

theorem shrVx (x y : RegIdx) : Statement (.shrVx x y) :=
  ⟨⟨"SHR", 0x8006#16, 0xF00F#16⟩, by decide, rfl, ends_of_nibbles _ _ _ _⟩

theorem subnVxVy (x y : RegIdx) : Statement (.subnVxVy x y) :=
  ⟨⟨"SUBN", 0x8007#16, 0xF00F#16⟩, by decide, rfl, ends_of_nibbles _ _ _ _⟩

theorem shlVx (x y : RegIdx) : Statement (.shlVx x y) :=
  ⟨⟨"SHL", 0x800E#16, 0xF00F#16⟩, by decide, rfl, ends_of_nibbles _ _ _ _⟩

theorem sneVxVy (x y : RegIdx) : Statement (.sneVxVy x y) :=
  ⟨⟨"SNE_VX_VY", 0x9000#16, 0xF00F#16⟩, by decide, rfl, ends_of_nibbles _ _ _ _⟩

theorem ldINnn (nnn : Addr) : Statement (.ldINnn nnn) :=
  ⟨⟨"LD_I_NNN", 0xA000#16, 0xF000#16⟩, by decide, rfl, family_of_address _ _⟩

theorem jpV0 (nnn : Addr) : Statement (.jpV0 nnn) :=
  ⟨⟨"JP_V0", 0xB000#16, 0xF000#16⟩, by decide, rfl, family_of_address _ _⟩

theorem rnd (x : RegIdx) (nn : Byte) : Statement (.rnd x nn) :=
  ⟨⟨"RND", 0xC000#16, 0xF000#16⟩, by decide, rfl, family_of_byte _ _ _⟩

theorem drw (x y : RegIdx) (n : Nibble) : Statement (.drw x y n) :=
  ⟨⟨"DRW", 0xD000#16, 0xF000#16⟩, by decide, rfl, family_of_nibbles _ _ _ _⟩

theorem skp (x : RegIdx) : Statement (.skp x) :=
  ⟨⟨"SKP", 0xE09E#16, 0xF0FF#16⟩, by decide, rfl, ends_of_byte _ _ _⟩

theorem sknp (x : RegIdx) : Statement (.sknp x) :=
  ⟨⟨"SKNP", 0xE0A1#16, 0xF0FF#16⟩, by decide, rfl, ends_of_byte _ _ _⟩

theorem ldVxDt (x : RegIdx) : Statement (.ldVxDt x) :=
  ⟨⟨"LD_VX_DT", 0xF007#16, 0xF0FF#16⟩, by decide, rfl, ends_of_byte _ _ _⟩

theorem ldVxK (x : RegIdx) : Statement (.ldVxK x) :=
  ⟨⟨"LD_VX_K", 0xF00A#16, 0xF0FF#16⟩, by decide, rfl, ends_of_byte _ _ _⟩

theorem ldDtVx (x : RegIdx) : Statement (.ldDtVx x) :=
  ⟨⟨"LD_DT_VX", 0xF015#16, 0xF0FF#16⟩, by decide, rfl, ends_of_byte _ _ _⟩

theorem ldStVx (x : RegIdx) : Statement (.ldStVx x) :=
  ⟨⟨"LD_ST_VX", 0xF018#16, 0xF0FF#16⟩, by decide, rfl, ends_of_byte _ _ _⟩

theorem addIVx (x : RegIdx) : Statement (.addIVx x) :=
  ⟨⟨"ADD_I_VX", 0xF01E#16, 0xF0FF#16⟩, by decide, rfl, ends_of_byte _ _ _⟩

theorem ldFVx (x : RegIdx) : Statement (.ldFVx x) :=
  ⟨⟨"LD_F_VX", 0xF029#16, 0xF0FF#16⟩, by decide, rfl, ends_of_byte _ _ _⟩

theorem ldBVx (x : RegIdx) : Statement (.ldBVx x) :=
  ⟨⟨"LD_B_VX", 0xF033#16, 0xF0FF#16⟩, by decide, rfl, ends_of_byte _ _ _⟩

theorem ldMemVx (x : RegIdx) : Statement (.ldMemVx x) :=
  ⟨⟨"LD_MEM_VX", 0xF055#16, 0xF0FF#16⟩, by decide, rfl, ends_of_byte _ _ _⟩

theorem ldVxMem (x : RegIdx) : Statement (.ldVxMem x) :=
  ⟨⟨"LD_VX_MEM", 0xF065#16, 0xF0FF#16⟩, by decide, rfl, ends_of_byte _ _ _⟩

end Sys2Proof.Laws.RowBits
end

