-- ==== Sys2Proof/Tests/Slice0.lean ====
section
/-! SUPPORT. The model's own tests. Expected results are those of 95_test_vectors.md and of the examples that end the
rules of 41_control_flow.md to 45_input_timers.md, each named; a few are worked out by hand from a rule. Then, for
every statement that has hypotheses, a named witness that meets them. -/
namespace Sys2Proof.Tests
open Sys2Proof Sys2Proof.Machine

/-! Decoding: one word per constructor, written out from the patterns of 30_encoding.md R96 -/

theorem test_decode_cls : decode 0x00E0#16 = .instr (.cls) := by decide

theorem test_decode_ret : decode 0x00EE#16 = .instr (.ret) := by decide

theorem test_decode_jp : decode 0x1ABC#16 = .instr (.jp 0xABC#12) := by decide

theorem test_decode_call : decode 0x2ABC#16 = .instr (.call 0xABC#12) := by decide

theorem test_decode_se_immediate : decode 0x3342#16 = .instr (.seVxNn 0x3#4 0x42#8) := by decide

theorem test_decode_sne_immediate : decode 0x4342#16 = .instr (.sneVxNn 0x3#4 0x42#8) := by decide

theorem test_decode_se_registers : decode 0x5120#16 = .instr (.seVxVy 0x1#4 0x2#4) := by decide

theorem test_decode_ld_immediate : decode 0x6A7B#16 = .instr (.ldVxNn 0xA#4 0x7B#8) := by decide

theorem test_decode_add_immediate : decode 0x7001#16 = .instr (.addVxNn 0x0#4 0x01#8) := by decide

theorem test_decode_ld_register : decode 0x8120#16 = .instr (.ldVxVy 0x1#4 0x2#4) := by decide

theorem test_decode_or : decode 0x8121#16 = .instr (.orVxVy 0x1#4 0x2#4) := by decide

theorem test_decode_and : decode 0x8122#16 = .instr (.andVxVy 0x1#4 0x2#4) := by decide

theorem test_decode_xor : decode 0x8123#16 = .instr (.xorVxVy 0x1#4 0x2#4) := by decide

theorem test_decode_add : decode 0x8124#16 = .instr (.addVxVy 0x1#4 0x2#4) := by decide

theorem test_decode_sub : decode 0x8125#16 = .instr (.subVxVy 0x1#4 0x2#4) := by decide

theorem test_decode_shr : decode 0x8126#16 = .instr (.shrVx 0x1#4 0x2#4) := by decide

theorem test_decode_subn : decode 0x8127#16 = .instr (.subnVxVy 0x1#4 0x2#4) := by decide

theorem test_decode_shl : decode 0x8ABE#16 = .instr (.shlVx 0xA#4 0xB#4) := by decide

theorem test_decode_sne_registers : decode 0x9120#16 = .instr (.sneVxVy 0x1#4 0x2#4) := by decide

theorem test_decode_ld_i : decode 0xA123#16 = .instr (.ldINnn 0x123#12) := by decide

theorem test_decode_jp_v0 : decode 0xBFFF#16 = .instr (.jpV0 0xFFF#12) := by decide

theorem test_decode_rnd : decode 0xC30F#16 = .instr (.rnd 0x3#4 0x0F#8) := by decide

theorem test_decode_drw : decode 0xD12F#16 = .instr (.drw 0x1#4 0x2#4 0xF#4) := by decide

theorem test_decode_skp : decode 0xE39E#16 = .instr (.skp 0x3#4) := by decide

theorem test_decode_sknp : decode 0xE3A1#16 = .instr (.sknp 0x3#4) := by decide

theorem test_decode_ld_dt_read : decode 0xF307#16 = .instr (.ldVxDt 0x3#4) := by decide

theorem test_decode_ld_key : decode 0xF30A#16 = .instr (.ldVxK 0x3#4) := by decide

theorem test_decode_ld_dt : decode 0xF015#16 = .instr (.ldDtVx 0x0#4) := by decide

theorem test_decode_ld_st : decode 0xF018#16 = .instr (.ldStVx 0x0#4) := by decide

theorem test_decode_add_i : decode 0xFF1E#16 = .instr (.addIVx 0xF#4) := by decide

theorem test_decode_ld_f : decode 0xF429#16 = .instr (.ldFVx 0x4#4) := by decide

theorem test_decode_ld_b : decode 0xF033#16 = .instr (.ldBVx 0x0#4) := by decide

theorem test_decode_store : decode 0xF355#16 = .instr (.ldMemVx 0x3#4) := by decide

theorem test_decode_load : decode 0xFF65#16 = .instr (.ldVxMem 0xF#4) := by decide


/-- The table's numbering of bits: the first byte in memory is the high byte. -/
theorem test_decode_table_word : decodeTableWord 16 0x8014 = some (.addVxVy 0x0#4 0x1#4) := by decide

theorem test_decode_table_word_unknown : decodeTableWord 16 0x8AB8 = none := by decide

theorem test_decode_bytes : decodeBytes 0x60#8 0x05#8 = .instr (.ldVxNn 0x0#4 0x05#8) := by decide

/-! Well-formedness: an ill-formed word of each class of 30_encoding.md R98, refused -/

theorem test_ill_formed_family_0 : wellFormedWord 0x00E1#16 = false ∧ wellFormedWord 0x0000#16 = false := by decide

theorem test_ill_formed_family_5 : wellFormedWord 0x5121#16 = false ∧ decode 0x5121#16 = .unknown 0x5121#16 := by decide

theorem test_ill_formed_family_8 : wellFormedWord 0x8AB8#16 = false ∧ decode 0x8ABF#16 = .unknown 0x8ABF#16 := by decide

theorem test_ill_formed_family_9 : wellFormedWord 0x9121#16 = false ∧ decode 0x912F#16 = .unknown 0x912F#16 := by decide

theorem test_ill_formed_family_E : wellFormedWord 0xE19F#16 = false ∧ decode 0xE0A2#16 = .unknown 0xE0A2#16 := by decide

theorem test_ill_formed_family_F : wellFormedWord 0xF1FF#16 = false ∧ decode 0xF375#16 = .unknown 0xF375#16 := by decide

/-! One step on a small state -/

/-- The start state of 95_test_vectors.md: construction, then a load of one word at 0x200. -/
def start (w : Nat) : State := State.reset.withFetchWord 16 w

/-- The state after one step from `s`, when it answers one. -/
def next? : Result → Option State
  | .next t => some t
  | .fault _ => none
  | .refused _ => none

/-- What `view` sees after one step. -/
def seen {α : Type} (s : State) (view : State → α) : Option α := (next? (step s)).map view

/-- Two registers preset. -/
def regs (w : Nat) (x : RegIdx) (a : Byte) (y : RegIdx) (b : Byte) : State := ((start w).setV x a).setV y b

/-- The stack depth preset. -/
def atDepth (w : Nat) (n : Fin 17) : State := { start w with sp := n }

/-- 95_test_vectors.md L2.1, PC = 0x0FFF. -/
theorem test_fetch_wraps :
    seen (((start 0x6142).setPc 0x0FFF#16).setByte 0xFFF 0x60#8 |>.setByte 0x000 0x42#8)
      (fun t => (t.getV 0x0#4, t.pc)) = some (0x42#8, 0x1001#16) := by decide

/-- 95_test_vectors.md L2.1, PC = 0x0201. -/
theorem test_fetch_odd :
    seen (((start 0x0000).setPc 0x0201#16).setByte 0x201 0x62#8 |>.setByte 0x202 0x99#8)
      (fun t => (t.getV 0x2#4, t.pc)) = some (0x99#8, 0x0203#16) := by decide

/-- 95_test_vectors.md L2.2, 0x5121 with V1 = V2. -/
theorem test_unknown :
    seen (regs 0x5121 0x1#4 0x07#8 0x2#4 0x07#8) (fun t => (t.pc, t.report))
      = some (0x0202#16, .unknownOpcode 0x5121#16) := by decide

/-- 95_test_vectors.md L2.4. -/
theorem test_ret :
    seen ({ atDepth 0x00EE 1 with stack := State.reset.stack.set 0 0x0345#16 }) (fun t => (t.pc, t.sp, t.stack[0]))
      = some (0x0345#16, 0, 0x0345#16) := by decide

/-- 95_test_vectors.md L2.4. -/
theorem test_ret_underflow : stepOutcome (step (start 0x00EE)) = some .stackUnderflow := by decide

/-- 95_test_vectors.md L2.4. -/
theorem test_jp : seen (start 0x1ABC) (fun t => t.pc) = some 0x0ABC#16 := by decide

/-- 95_test_vectors.md L2.4. -/
theorem test_call :
    seen (start 0x2ABC) (fun t => (t.stack[0], t.sp, t.pc)) = some (0x0202#16, 1, 0x0ABC#16) := by decide

/-- 95_test_vectors.md P6, step 17. -/
theorem test_call_overflow : stepOutcome (step (atDepth 0x2200 16)) = some .stackOverflow := by decide

/-- 95_test_vectors.md L2.4. -/
theorem test_se_immediate : seen (regs 0x3012 0x0#4 0x12#8 0x1#4 0x00#8) (fun t => t.pc) = some 0x0204#16 := by decide

/-- 95_test_vectors.md L2.4. -/
theorem test_se_immediate_not :
    seen (regs 0x3012 0x0#4 0x13#8 0x1#4 0x00#8) (fun t => t.pc) = some 0x0202#16 := by decide

/-- 95_test_vectors.md L2.4. -/
theorem test_sne_immediate : seen (regs 0x4012 0x0#4 0x13#8 0x1#4 0x00#8) (fun t => t.pc) = some 0x0204#16 := by decide

/-- 95_test_vectors.md L2.4. -/
theorem test_sne_immediate_not :
    seen (regs 0x4012 0x0#4 0x12#8 0x1#4 0x00#8) (fun t => t.pc) = some 0x0202#16 := by decide

/-- 95_test_vectors.md L2.4. -/
theorem test_se_registers : seen (regs 0x5120 0x1#4 0x03#8 0x2#4 0x03#8) (fun t => t.pc) = some 0x0204#16 := by decide

/-- 95_test_vectors.md L2.4. -/
theorem test_sne_registers : seen (regs 0x9120 0x1#4 0x03#8 0x2#4 0x04#8) (fun t => t.pc) = some 0x0204#16 := by decide

/-- 95_test_vectors.md L2.4. -/
theorem test_sne_registers_equal :
    seen (regs 0x9120 0x1#4 0x03#8 0x2#4 0x03#8) (fun t => t.pc) = some 0x0202#16 := by decide

/-- 95_test_vectors.md L2.1, PC = 0xFFFE, a skip taken. -/
theorem test_skip_wraps :
    seen (((start 0x0000).setPc 0xFFFE#16).setByte 0xFFE 0x30#8) (fun t => t.pc) = some 0x0002#16 := by decide

/-- 95_test_vectors.md L2.4: not reduced. -/
theorem test_jp_v0 : seen (regs 0xBFFF 0x0#4 0xFF#8 0xF#4 0x01#8) (fun t => t.pc) = some 0x10FE#16 := by decide

/-- 95_test_vectors.md L1.1. -/
theorem test_ld_immediate : seen (start 0x6A7B) (fun t => (t.getV 0xA#4, t.pc)) = some (0x7B#8, 0x0202#16) := by decide

/-- 95_test_vectors.md L2.3: no flag. -/
theorem test_add_immediate :
    seen (regs 0x70FF 0x0#4 0x01#8 0xF#4 0x07#8) (fun t => (t.getV 0x0#4, t.getV vf))
      = some (0x00#8, 0x07#8) := by decide

/-- 95_test_vectors.md L2.3: VF as an ordinary register. -/
theorem test_add_immediate_vf :
    seen (regs 0x7F01 0xF#4 0xFF#8 0x0#4 0x00#8) (fun t => (t.getV 0xF#4, t.getV vf))
      = some (0x00#8, 0x00#8) := by decide

/-- 95_test_vectors.md L2.3. -/
theorem test_ld_register :
    seen (regs 0x8010 0x0#4 0x00#8 0x1#4 0x42#8) (fun t => (t.getV 0x0#4, t.getV vf))
      = some (0x42#8, 0x00#8) := by decide

/-- 95_test_vectors.md L2.3. -/
theorem test_or :
    seen (regs 0x8011 0x0#4 0xF0#8 0x1#4 0x0F#8) (fun t => (t.getV 0x0#4, t.getV vf))
      = some (0xFF#8, 0x00#8) := by decide

/-- 95_test_vectors.md L2.3. -/
theorem test_and :
    seen (regs 0x8012 0x0#4 0xF0#8 0x1#4 0x3C#8) (fun t => (t.getV 0x0#4, t.getV vf))
      = some (0x30#8, 0x00#8) := by decide

/-- 95_test_vectors.md L2.3. -/
theorem test_xor :
    seen (regs 0x8013 0x0#4 0xFF#8 0x1#4 0x0F#8) (fun t => (t.getV 0x0#4, t.getV vf))
      = some (0xF0#8, 0x00#8) := by decide

/-- 95_test_vectors.md L2.3: the sum is exactly 256. -/
theorem test_add_carry :
    seen (regs 0x8014 0x0#4 0x80#8 0x1#4 0x80#8) (fun t => (t.getV 0x0#4, t.getV vf))
      = some (0x00#8, 0x01#8) := by decide

/-- 95_test_vectors.md L2.3: the old VF is the operand. -/
theorem test_add_vf_operand :
    seen (regs 0x80F4 0x0#4 0x05#8 0xF#4 0xFF#8) (fun t => (t.getV 0x0#4, t.getV vf))
      = some (0x04#8, 0x01#8) := by decide

/-- 95_test_vectors.md L2.3. -/
theorem test_sub_borrow :
    seen (regs 0x8015 0x0#4 0x03#8 0x1#4 0x05#8) (fun t => (t.getV 0x0#4, t.getV vf))
      = some (0xFE#8, 0x00#8) := by decide

/-- 95_test_vectors.md L2.3: VF holds the flag. -/
theorem test_sub_vf :
    seen (regs 0x8F15 0xF#4 0x05#8 0x1#4 0x03#8) (fun t => (t.getV 0xF#4, t.getV vf))
      = some (0x01#8, 0x01#8) := by decide

/-- 95_test_vectors.md L2.3: V1 is not read. -/
theorem test_shr :
    seen (regs 0x8016 0x0#4 0xFE#8 0x1#4 0xFF#8) (fun t => (t.getV 0x0#4, t.getV vf))
      = some (0x7F#8, 0x00#8) := by decide

/-- 95_test_vectors.md L2.3: the flag overwrites 0x40. -/
theorem test_shr_vf :
    seen (regs 0x8FF6 0xF#4 0x81#8 0x0#4 0x00#8) (fun t => (t.getV 0xF#4, t.getV vf))
      = some (0x01#8, 0x01#8) := by decide

/-- 95_test_vectors.md L2.3. -/
theorem test_subn :
    seen (regs 0x8017 0x0#4 0x03#8 0x1#4 0x05#8) (fun t => (t.getV 0x0#4, t.getV vf))
      = some (0x02#8, 0x01#8) := by decide

/-- 95_test_vectors.md L2.3. -/
theorem test_subn_borrow :
    seen (regs 0x8017 0x0#4 0x05#8 0x1#4 0x03#8) (fun t => (t.getV 0x0#4, t.getV vf))
      = some (0xFE#8, 0x00#8) := by decide

/-- 95_test_vectors.md L2.3. -/
theorem test_shl :
    seen (regs 0x800E 0x0#4 0xFF#8 0x1#4 0x00#8) (fun t => (t.getV 0x0#4, t.getV vf))
      = some (0xFE#8, 0x01#8) := by decide

/-- 95_test_vectors.md L2.3: the flag overwrites 0x02. -/
theorem test_shl_vf :
    seen (regs 0x8FFE 0xF#4 0x01#8 0x0#4 0x00#8) (fun t => (t.getV 0xF#4, t.getV vf))
      = some (0x00#8, 0x00#8) := by decide

/-- 42_alu.md R182: the free byte AND NN. -/
theorem test_rnd_masked : seen (start 0xC30F) (fun t => t.getV 0x3#4) = some (Config.randomByte 0 &&& 0x0F#8) := rfl

/-- 95_test_vectors.md L2.3: whatever the draw. -/
theorem test_rnd_zero_mask : seen (start 0xC300) (fun t => t.getV 0x3#4) = some 0x00#8 := by
  show some (Config.randomByte 0 &&& 0x00#8) = some 0x00#8
  simp

/-- 95_test_vectors.md L2.5. -/
theorem test_ld_i : seen (start 0xA123) (fun t => t.i) = some 0x0123#16 := by decide

/-- 95_test_vectors.md L2.5. -/
theorem test_add_i_wraps :
    seen ((regs 0xF01E 0x0#4 0x01#8 0x1#4 0x00#8).setI 0x0FFF#16) (fun t => (t.i, t.getV vf))
      = some (0x0000#16, 0x00#8) := by decide

/-- 95_test_vectors.md L2.5. -/
theorem test_add_i_vf :
    seen ((regs 0xFF1E 0xF#4 0xFF#8 0x1#4 0x00#8).setI 0x0100#16) (fun t => (t.i, t.getV vf))
      = some (0x01FF#16, 0xFF#8) := by decide

/-- 95_test_vectors.md L2.5: digit A of 0x1A. -/
theorem test_ld_f : seen (regs 0xF029 0x0#4 0x1A#8 0x1#4 0x00#8) (fun t => t.i) = some 0x0082#16 := by decide

/-- 95_test_vectors.md L2.5. -/
theorem test_ld_b_255 :
    seen ((regs 0xF033 0x0#4 0xFF#8 0x1#4 0x00#8).setI 0x0300#16)
      (fun t => (t.memByte 0x300, t.memByte 0x301, t.memByte 0x302)) = some (0x02#8, 0x05#8, 0x05#8) := by decide

/-- 95_test_vectors.md L2.5. -/
theorem test_ld_b_wraps :
    seen ((regs 0xF033 0x0#4 123#8 0x1#4 0x00#8).setI 0x0FFE#16)
      (fun t => (t.memByte 0xFFE, t.memByte 0xFFF, t.memByte 0x000)) = some (0x01#8, 0x02#8, 0x03#8) := by decide

/-- 95_test_vectors.md L2.5. -/
theorem test_store_wraps :
    seen (((regs 0xF355 0x0#4 0x01#8 0x1#4 0x02#8).setV 0x3#4 0x04#8).setI 0x0FFE#16)
      (fun t => (t.memByte 0xFFF, t.memByte 0x001, t.i)) = some (0x02#8, 0x04#8, 0x0FFE#16) := by decide

/-- 95_test_vectors.md L2.5. -/
theorem test_store_v0_only :
    seen ((regs 0xF055 0x0#4 0xAA#8 0x1#4 0xBB#8).setI 0x0300#16) (fun t => (t.memByte 0x300, t.memByte 0x301))
      = some (0xAA#8, 0x00#8) := by decide

/-- 95_test_vectors.md L2.5: V3 unchanged. -/
theorem test_load :
    seen (((start 0xF265).storeBytes 0x400 [0x09#8, 0x08#8, 0x07#8, 0x06#8]).setI 0x0400#16)
      (fun t => (t.getV 0x0#4, t.getV 0x2#4, t.getV 0x3#4)) = some (0x09#8, 0x07#8, 0x00#8) := by decide

/-- 43_index_memory.md R205: addresses past 0xFFF wrap. -/
theorem test_load_wraps :
    seen (((start 0xF165).storeBytes 0xFFF [0x11#8, 0x22#8]).setI 0x0FFF#16) (fun t => (t.getV 0x0#4, t.getV 0x1#4))
      = some (0x11#8, 0x22#8) := by decide

/-- 95_test_vectors.md L2.6. -/
theorem test_cls :
    seen ((start 0x00E0).setDisp (flipCell clearDisplay 63 31)) (fun t => displayCell t 63 31) = some false := by decide

/-- 95_test_vectors.md L2.6. -/
theorem test_draw_wraps_start :
    seen (((regs 0xD011 0x0#4 70#8 0x1#4 40#8).setByte 0x300 0x80#8).setI 0x0300#16)
      (fun t => (displayCell t 6 8, displayCell t 7 8, t.getV vf)) = some (true, false, 0x00#8) := by decide

/-- 95_test_vectors.md L2.6. -/
theorem test_draw_collides :
    seen ((((start 0xD001).setByte 0x300 0xF0#8).setI 0x0300#16).setDisp (flipCell clearDisplay 1 0))
      (fun t => (displayCell t 0 0, displayCell t 1 0, displayCell t 3 0, t.getV vf))
        = some (true, false, true, 0x01#8) := by decide

/-- 95_test_vectors.md L2.7: key 3 of 0x13. -/
theorem test_skp :
    seen ((regs 0xE39E 0x3#4 0x13#8 0x1#4 0x00#8).setKeyAt 0x3#4 true) (fun t => t.pc) = some 0x0204#16 := by decide

/-- 95_test_vectors.md L2.7. -/
theorem test_sknp_pressed :
    seen ((regs 0xE3A1 0x3#4 0x13#8 0x1#4 0x00#8).setKeyAt 0x3#4 true) (fun t => t.pc) = some 0x0202#16 := by decide

/-- 95_test_vectors.md L2.7. -/
theorem test_sknp : seen (regs 0xE3A1 0x3#4 0x03#8 0x1#4 0x00#8) (fun t => t.pc) = some 0x0204#16 := by decide

/-- 95_test_vectors.md L2.7. -/
theorem test_key_wait :
    seen (start 0xF50A) (fun t => (t.pc, t.execState, t.report))
      = some (0x0200#16, .awaitingKey, .waitingForKey) := by decide

/-- 95_test_vectors.md L2.7. -/
theorem test_key_smallest :
    seen (((start 0xF50A).setKeyAt 0x9#4 true).setKeyAt 0x2#4 true) (fun t => (t.getV 0x5#4, t.pc, t.execState))
      = some (0x02#8, 0x0202#16, .running) := by decide

/-- 95_test_vectors.md L2.8. -/
theorem test_ld_dt : seen (regs 0xF015 0x0#4 0x3C#8 0x1#4 0x00#8) (fun t => t.dt) = some 0x3C#8 := by decide

/-- 95_test_vectors.md L2.8. -/
theorem test_ld_st :
    seen (regs 0xF018 0x0#4 0x01#8 0x1#4 0x00#8) (fun t => (t.st, soundActive t)) = some (0x01#8, true) := by decide

/-- 95_test_vectors.md L2.8. -/
theorem test_ld_dt_read : seen ((start 0xF307).setDt 0x3C#8) (fun t => t.getV 0x3#4) = some 0x3C#8 := by decide

/-! The host's operations -/

/-- 95_test_vectors.md L2.9. -/
theorem test_tick :
    (tickTimers ((State.reset.setDt 3#8).setSt 0#8)).dt = 2#8
      ∧ (tickTimers ((State.reset.setDt 3#8).setSt 0#8)).st = 0#8 := by decide

/-- 95_test_vectors.md L2.9. -/
theorem test_tick_silences : soundActive (tickTimers (State.reset.setSt 1#8)) = false := by decide

/-- 95_test_vectors.md L2.9. -/
theorem test_set_key :
    (next? (setKey 0xB true State.reset)).map (fun t => (t.keyDown 0xB#4, t.keyDown 0xA#4))
      = some (true, false) := by decide

/-- 95_test_vectors.md L1.8: the scenario's ROM, its first step and what the load leaves. -/
theorem test_load_rom : (next? (runSchedule [.loadRom [0x60#8, 0x05#8, 0x61#8, 0x03#8], .step] State.reset)).map
    (fun t => (t.getV 0x0#4, t.memByte 0x203, t.pc)) = some (0x05#8, 0x03#8, 0x0202#16) := by decide

/-- 92_eei_decisions.md D29. -/
theorem test_outcome_codes : StepOutcome.normal.code = 0 ∧ StepOutcome.waitingForKey.code = 1
    ∧ (StepOutcome.unknownOpcode 0#16).code = 2 ∧ StepOutcome.stackOverflow.code = 3
    ∧ StepOutcome.stackUnderflow.code = 4 := by decide

/-- 10_state.md R43: the font's first and last byte, and the bytes around it. -/
theorem test_reset_memory : State.reset.memByte 0x050 = 0xF0#8 ∧ State.reset.memByte 0x09F = 0x80#8
    ∧ State.reset.memByte 0x04F = 0x00#8 ∧ State.reset.memByte 0x0A0 = 0x00#8 := by decide

/-- Writing what an unlisted address reads as removes the entry. -/
theorem test_canonical_memory :
    ((State.reset.setByte 0x300 0x01#8).setByte 0x300 0x00#8).mem = [] ∧ (State.reset.setByte 0x050 0xF0#8).mem = [] := by
  decide

/-! Witnesses: for every statement with hypotheses, a state and operands that meet them, clause by clause and at
the boundaries of their ranges -/

theorem witness_DecodedWordIsItsEncoding : decode 0x8014#16 = .instr (.addVxVy 0x0#4 0x1#4) := by decide

theorem witness_OpcodeMapRowsAreDecoded :
    (⟨"DRW", 0xD000#16, 0xF000#16⟩ : OpcodeRow) ∈ opcodeMap ∧ 0xD12F#16 &&& 0xF000#16 = 0xD000#16 := by decide

theorem witness_UnknownSpaceIsExactly : decode 0x0123#16 = .unknown 0x0123#16 := by decide

theorem witness_StepRunsDecodedInstruction :
    (start 0x8014).loaded = true ∧ decode (start 0x8014).fetchWord = .instr (.addVxVy 0x0#4 0x1#4) := by decide

theorem witness_UnknownWordOnlyAdvancesPc :
    (start 0x5121).loaded = true ∧ decode (start 0x5121).fetchWord = .unknown 0x5121#16 := by decide

theorem witness_StepBeforeLoadIsRefused : State.reset.loaded = false := by decide

theorem witness_StepOutcomes_overflow : (atDepth 0x2ABC 16).loaded = true
    ∧ (atDepth 0x2ABC 16).fetchWord.toNat / 0x1000 = 0x2 ∧ (atDepth 0x2ABC 16).sp.val = 16 := by decide

theorem witness_StepOutcomes_underflow : (start 0x00EE).loaded = true
    ∧ (start 0x00EE).fetchWord.toNat = 0x00EE ∧ (start 0x00EE).sp.val = 0 := by decide

theorem witness_StepOutcomes_unknown : (start 0x0000).loaded = true ∧ unknownWord (start 0x0000).fetchWord = true := by
  decide

theorem witness_StepOutcomes_waiting : (start 0xF30A).loaded = true ∧ (start 0xF30A).fetchWord.toNat / 0x1000 = 0xF
    ∧ (start 0xF30A).fetchWord.toNat % 0x100 = 0x0A ∧ ∀ k, (start 0xF30A).keyDown k = false := by decide

/-- A core that waits at 0x200 in FX0A. -/
def waiting : State := ((start 0xF30A).setExec .awaitingKey).setReport .waitingForKey

theorem waiting_invariant :
    Invariant waiting := ⟨by decide, by decide, fun _ => ⟨by decide, 0x3#4, by decide⟩, by decide⟩

theorem start_invariant : Invariant (start 0x6005) := ⟨by decide, by decide, fun h => absurd h (by decide), by decide⟩

theorem witness_StepKeepsInvariant : Invariant (start 0x6005) ∧ ∃ t, step (start 0x6005) = .next t :=
  ⟨start_invariant, _, rfl⟩

theorem witness_EveryScheduleKeepsInvariant : Invariant (start 0x6005)
    ∧ ∃ t, runSchedule [.step, .tick, .setKey 0xF true, .step] (start 0x6005) = .next t :=
  ⟨start_invariant, _, rfl⟩

theorem witness_AwaitingCore_waits :
    Invariant waiting ∧ waiting.execState = .awaitingKey ∧ ∀ k, waiting.keyDown k = false :=
  ⟨waiting_invariant, by decide, by decide⟩

theorem witness_AwaitingCore_completes : Invariant (waiting.setKeyAt 0xF#4 true)
    ∧ (waiting.setKeyAt 0xF#4 true).execState = .awaitingKey ∧ ∃ k, (waiting.setKeyAt 0xF#4 true).keyDown k = true :=
  ⟨⟨by decide, by decide, fun _ => ⟨by decide, 0x3#4, by decide⟩, by decide⟩, by decide, 0xF#4, by decide⟩

/-- The depths RET pops from, and the one it stops at. -/
theorem witness_ReturnPopsTheStack :
    (atDepth 0x00EE 1).sp.val = 0 + 1 ∧ (atDepth 0x00EE 16).sp.val = 15 + 1 ∧ (atDepth 0x00EE 0).sp.val = 0 := by decide

/-- The depths CALL pushes at, and the one it stops at. -/
theorem witness_CallPushesReturnAddress :
    (atDepth 0x2ABC 0).sp.val = 0 ∧ (atDepth 0x2ABC 15).sp.val = 15 ∧ (atDepth 0x2ABC 16).sp.val = 16 := by decide

theorem witness_SkipOnRegisters : (0x1#4 : Nibble) ≠ 0x0#4 ∧ (0xF#4 : Nibble) ≠ 0x0#4 := by decide

theorem witness_ReturnUndoesCall : (atDepth 0x2ABC 15).sp.val = 15 ∧ ∃ t u : State,
    exec (.call 0xABC#12) (atDepth 0x2ABC 15) = .next t ∧ u.sp = t.sp ∧ u.stack[15] = t.stack[15] :=
  ⟨by decide, _, _, rfl, rfl, rfl⟩

theorem witness_LiveStackEntriesSurvive :
    (15 < (atDepth 0x00E0 16).sp.val) ∧ ∃ t, exec .cls (atDepth 0x00E0 16) = .next t := ⟨by decide, _, rfl⟩

theorem witness_FinalStateIsFixed : Final (start 0x1200) := by
  refine ⟨?_, ?_, ?_⟩ <;> decide

/-- The flag statements speak of a destination other than VF and of VF itself. -/
theorem witness_flag_destinations : (0xE#4 : RegIdx) ≠ vf ∧ (0xF#4 : RegIdx) = vf ∧ (0xE#4 : RegIdx) ∉ [0x0#4, vf] := by
  decide

theorem witness_RandomIsMaskedFreeByte :
    (0x0F#8 : Byte).getLsbD 4 = false ∧ (0x00#8 : Byte).getLsbD 0 = false := by decide

theorem witness_FlagIsZeroOrOne :
    writesFlag (.drw 0xF#4 0xF#4 0x0#4) = true ∧ writesFlag (.shlVx 0xF#4 0x0#4) = true := by
  decide

/-- An address outside the three digits, with I at the top of memory. -/
theorem witness_DecimalDigitsAreStored : ∀ k < 3, 1 % 4096 ≠ (((start 0xF033).setI 0x0FFE#16).i.toNat + k) % 4096 := by
  decide

/-- The last register stored, and an address outside the sixteen bytes, with I at the top of memory. -/
theorem witness_RegistersAreStored : (0xF#4 : RegIdx).toNat ≤ (0xF#4 : RegIdx).toNat
    ∧ ∀ k ≤ 15, 14 % 4096 ≠ (((start 0xFF55).setI 0x0FFE#16).i.toNat + k) % 4096 := by decide

theorem witness_StoredRegistersLoadBack : ∃ t u : State, exec (.ldMemVx 0xF#4) (start 0xFF55) = .next t
    ∧ u.i = (start 0xFF55).i ∧ (∀ a, u.memByte a = t.memByte a) ∧ (0xF#4 : RegIdx).toNat ≤ (0xF#4 : RegIdx).toNat :=
  ⟨_, _, rfl, rfl, fun _ => rfl, by decide⟩

theorem witness_StoredWordIsFetchedNext : 1 ≤ (0x1#4 : RegIdx).toNat
    ∧ ((start 0xF155).setI 0x0202#16).i.toNat % 4096 = (((start 0xF155).setI 0x0202#16).pc.toNat + 2) % 4096 := by decide

/-- The glyph of 0 drawn from the last column and row: a cell a 1 bit falls on after the wrap, and one none does. -/
theorem witness_DrawInvertsCoveredCells :
    Covers ((start 0xD015).setI 0x0050#16) 63 31 5 0 3 ∧ ¬ Covers ((start 0xD015).setI 0x0050#16) 63 31 5 0 0 := by
  refine ⟨⟨4, 1, by decide, by decide, by decide, by decide, by decide⟩, ?_⟩
  rintro ⟨r, c, hr, hc, hb, hx, hy⟩
  obtain rfl : r = 1 := by omega
  obtain rfl : c = 1 := by omega
  exact absurd hb (by decide)

theorem witness_SecondDrawErasesTheFirst : ∃ t u : State, exec (.drw 0x0#4 0x1#4 0x5#4) (start 0xD015) = .next t
    ∧ u.disp = t.disp ∧ u.i = (start 0xD015).i ∧ (∀ a, u.memByte a = (start 0xD015).memByte a)
    ∧ u.getV 0x0#4 = (start 0xD015).getV 0x0#4 ∧ u.getV 0x1#4 = (start 0xD015).getV 0x1#4 := by
  refine ⟨_, (start 0xD015).setDisp _, rfl, rfl, rfl, fun _ => rfl, rfl, rfl⟩

theorem witness_SkipOnKey : (0x3#4 : RegIdx).toNat = ((start 0xE39E).setV 0x3#4 0x13#8 |>.getV 0x3#4).toNat % 16
    ∧ (0xF#4 : RegIdx).toNat = ((start 0xE39E).setV 0x3#4 0xFF#8 |>.getV 0x3#4).toNat % 16 := by decide

theorem witness_KeyWaitChangesOnlyExecState : ∀ k, (start 0xF30A).keyDown k = false := by decide

/-- The lowest key there is, and the highest, pressed alone. -/
theorem witness_KeyWaitStoresSmallestKey :
    ((start 0xF30A).setKeyAt 0x0#4 true).keyDown 0x0#4 = true ∧ ((start 0xF30A).setKeyAt 0xF#4 true).keyDown 0xF#4 = true
    ∧ ∀ j : RegIdx, j.toNat < (0xF#4 : RegIdx).toNat → ((start 0xF30A).setKeyAt 0xF#4 true).keyDown j = false := by decide

theorem witness_SetKeyWritesOneKey : (0x0#4 : RegIdx).toNat = 0 ∧ (0xF#4 : RegIdx).toNat = 15 ∧ (0xE#4 : RegIdx) ≠ 0xF#4
    ∧ 16 ≤ 16 := by decide

/-- The empty ROM and the largest one, and a core that is loaded already. -/
theorem witness_AcceptedRomIsWrittenVerbatim : State.reset.loaded = false ∧ ([] : List Byte).length ≤ 3584
    ∧ (List.replicate 3584 0x01#8).length ≤ 3584 ∧ (start 0x00E0).loaded = true :=
  ⟨rfl, by decide, by rw [List.length_replicate], by decide⟩

/-- An address on each side of a one-byte ROM, and the byte of the ROM. -/
theorem witness_AcceptedRom_addresses : (0x1FF < 4096 ∧ 0x1FF < 0x200)
    ∧ (0x201 < 4096 ∧ 0x200 + [0x01#8].length ≤ 0x201) ∧ 0 < [0x01#8].length := by decide

theorem witness_OversizedRomIsRejectedWhole : State.reset.loaded = false ∧ 3584 < (List.replicate 3585 0x01#8).length :=
  ⟨rfl, by rw [List.length_replicate]; decide⟩

/-- 95_test_vectors.md L1.8, its first step, observed after exactly one step. -/
theorem test_observe_one_step : (observeAfter defaultFont [0x60#8, 0x05#8] 1 [.tick, .step, .tick]).map
    (fun t => (t.getV 0x0#4, t.pc)) = some (0x05#8, 0x0202#16) := by decide

/-- 95_test_vectors.md P5, step 3: a step that waits is not counted. -/
theorem test_observe_wait : (observeAfter defaultFont [0xF3#8, 0x0A#8] 1 [.step]).isNone = true := by decide

/-- 10_state.md R43: another font stands where the default one does. -/
theorem test_construct_other_font : (construct (Vector.replicate 80 0x3C#8)).memByte 0x09F = 0x3C#8
    ∧ (construct (Vector.replicate 80 0x3C#8)).memByte 0x0A0 = 0x00#8 :=
  ⟨memByte_construct_font _ 79 (by decide), memByte_construct_outside _ 0x0A0 (by decide)⟩

/-- The first and last address of the font, and those next to it. -/
theorem witness_ConstructTakesAnyFont : (0x050 ≤ 0x050 % 4096 ∧ 0x050 % 4096 < 0x0A0)
    ∧ (0x050 ≤ 0x09F % 4096 ∧ 0x09F % 4096 < 0x0A0) ∧ ¬ 0x050 ≤ 0x04F % 4096 ∧ ¬ 0x0A0 % 4096 < 0x0A0 := by decide

theorem witness_StepCountObservationIsExact : (∃ t, afterSteps 1 [.tick, .step] (start 0x5121) = some t)
    ∧ ∃ u, [Event.tick, .step] = [.tick] ++ .step :: [] ∧ runSchedule ([.tick] ++ [.step]) (start 0x5121) = .next u :=
  ⟨⟨_, rfl⟩, _, rfl, rfl⟩

theorem witness_ReachesFinal : ∃ t, ReachesFinal defaultFont [0x12#8, 0x00#8] [.tick] t :=
  ⟨_, _, rfl, rfl, by decide, by decide, by decide⟩

theorem witness_EveryInstructionKeepsItsFrame : ∃ t, exec (.ldMemVx 0xF#4) (start 0xFF55) = .next t := ⟨_, rfl⟩

theorem witness_OnlyNamedRegistersChange : writesReg (.addVxVy 0x0#4 0x1#4) 0x1#4 = false
    ∧ ∃ t, exec (.addVxVy 0x0#4 0x1#4) (start 0x8014) = .next t := ⟨by decide, _, rfl⟩

theorem witness_DefaultAdvanceIsTwo :
    steersPc (.drw 0x0#4 0x1#4 0x0#4) = false ∧ steersPc (.ldMemVx 0xF#4) = false := by
  decide

end Sys2Proof.Tests
end

section
/-! The opcode map of 30_encoding.md R96 held against the decoder and the encoder, and the fetch of the word (R90).
A row fixes some of a word's fields and leaves the others as operands, so a word of a row is the encoding of one
instruction of that row; the encoding of any instruction decodes to it, and carries the fixed bits of the one row
that has its mnemonic. -/
namespace Sys2Proof

/-! The fields a mask keeps -/

theorem fieldF_and (w m : Word) : fieldF (w &&& m) = fieldF w &&& fieldF m := BitVec.extractLsb'_and

theorem fieldN_and (w m : Word) : fieldN (w &&& m) = fieldN w &&& fieldN m := BitVec.extractLsb'_and

theorem fieldNN_and (w m : Word) : fieldNN (w &&& m) = fieldNN w &&& fieldNN m := BitVec.extractLsb'_and

section
variable {w m b : Word} {f n : Nibble} {nn : Byte}

theorem fieldF_of_and_eq (h : w &&& m = b) (hm : fieldF m = 0xF#4) : fieldF w = fieldF b := by
  rw [← h, fieldF_and, hm, Laws.RowBits.and_F]

theorem fieldN_of_and_eq (h : w &&& m = b) (hm : fieldN m = 0xF#4) : fieldN w = fieldN b := by
  rw [← h, fieldN_and, hm, Laws.RowBits.and_F]

theorem fieldNN_of_and_eq (h : w &&& m = b) (hm : fieldNN m = 0xFF#8) : fieldNN w = fieldNN b := by
  rw [← h, fieldNN_and, hm, Laws.RowBits.and_FF]

/-! A word with a row's fixed bits, put together from those bits and its operand fields: one lemma for each form of
30_encoding.md R96 -/

theorem addressWord_of_family (h : w &&& 0xF000#16 = f ++ 0x000#12) : f ++ fieldNNN w = w := by
  have hF : fieldF w = f := (fieldF_of_and_eq h rfl).trans (fieldF_addressWord f _)
  rw [← hF, addressWord_of_word]

theorem byteWord_of_family (h : w &&& 0xF000#16 = f ++ 0x0#4 ++ 0x00#8) : f ++ fieldX w ++ fieldNN w = w := by
  have hF : fieldF w = f := (fieldF_of_and_eq h rfl).trans (fieldF_byteWord f _ _)
  rw [← hF, byteWord_of_word]

theorem nibbles_of_family (h : w &&& 0xF000#16 = f ++ 0x0#4 ++ 0x0#4 ++ 0x0#4) :
    f ++ fieldX w ++ fieldY w ++ fieldN w = w := by
  have hF : fieldF w = f := (fieldF_of_and_eq h rfl).trans (fieldF_nibbles f _ _ _)
  rw [← hF, nibbles_of_word]

theorem nibbles_of_ends (h : w &&& 0xF00F#16 = f ++ 0x0#4 ++ 0x0#4 ++ n) : f ++ fieldX w ++ fieldY w ++ n = w := by
  have hF : fieldF w = f := (fieldF_of_and_eq h rfl).trans (fieldF_nibbles f _ _ n)
  have hN : fieldN w = n := (fieldN_of_and_eq h rfl).trans (fieldN_nibbles f _ _ n)
  rw [← hF, ← hN, nibbles_of_word]

theorem byteWord_of_ends (h : w &&& 0xF0FF#16 = f ++ 0x0#4 ++ nn) : f ++ fieldX w ++ nn = w := by
  have hF : fieldF w = f := (fieldF_of_and_eq h rfl).trans (fieldF_byteWord f _ nn)
  have hNN : fieldNN w = nn := (fieldNN_of_and_eq h rfl).trans (fieldNN_byteWord f _ nn)
  rw [← hF, ← hNN, byteWord_of_word]

theorem eq_of_and_allOnes (h : w &&& 0xFFFF#16 = b) : b = w := by
  rw [← h]
  exact BitVec.and_allOnes

end

/-- A word with the fixed bits of a row is the encoding of an instruction with the row's mnemonic: the one that takes
its operands from the word's own fields (30_encoding.md R96). -/
theorem exists_encode_of_row (w : Word) : ∀ r ∈ opcodeMap, w &&& r.mask = r.bits →
    ∃ i : Instr, i.mnemonic = r.mnemonic ∧ encode i = w := by
  simp only [opcodeMap, List.forall_mem_cons]
  refine ⟨?cls, ?ret, ?jp, ?call, ?seVxNn, ?sneVxNn, ?seVxVy, ?ldVxNn, ?addVxNn, ?ldVxVy, ?orVxVy, ?andVxVy,
    ?xorVxVy, ?addVxVy, ?subVxVy, ?shrVx, ?subnVxVy, ?shlVx, ?sneVxVy, ?ldINnn, ?jpV0, ?rnd, ?drw, ?skp, ?sknp,
    ?ldVxDt, ?ldVxK, ?ldDtVx, ?ldStVx, ?addIVx, ?ldFVx, ?ldBVx, ?ldMemVx, ?ldVxMem, List.forall_mem_nil _⟩
    <;> intro h
  case cls => exact ⟨.cls, rfl, eq_of_and_allOnes h⟩
  case ret => exact ⟨.ret, rfl, eq_of_and_allOnes h⟩
  case jp => exact ⟨.jp (fieldNNN w), rfl, addressWord_of_family h⟩
  case call => exact ⟨.call (fieldNNN w), rfl, addressWord_of_family h⟩
  case seVxNn => exact ⟨.seVxNn (fieldX w) (fieldNN w), rfl, byteWord_of_family h⟩
  case sneVxNn => exact ⟨.sneVxNn (fieldX w) (fieldNN w), rfl, byteWord_of_family h⟩
  case seVxVy => exact ⟨.seVxVy (fieldX w) (fieldY w), rfl, nibbles_of_ends h⟩
  case ldVxNn => exact ⟨.ldVxNn (fieldX w) (fieldNN w), rfl, byteWord_of_family h⟩
  case addVxNn => exact ⟨.addVxNn (fieldX w) (fieldNN w), rfl, byteWord_of_family h⟩
  case ldVxVy => exact ⟨.ldVxVy (fieldX w) (fieldY w), rfl, nibbles_of_ends h⟩
  case orVxVy => exact ⟨.orVxVy (fieldX w) (fieldY w), rfl, nibbles_of_ends h⟩
  case andVxVy => exact ⟨.andVxVy (fieldX w) (fieldY w), rfl, nibbles_of_ends h⟩
  case xorVxVy => exact ⟨.xorVxVy (fieldX w) (fieldY w), rfl, nibbles_of_ends h⟩
  case addVxVy => exact ⟨.addVxVy (fieldX w) (fieldY w), rfl, nibbles_of_ends h⟩
  case subVxVy => exact ⟨.subVxVy (fieldX w) (fieldY w), rfl, nibbles_of_ends h⟩
  case shrVx => exact ⟨.shrVx (fieldX w) (fieldY w), rfl, nibbles_of_ends h⟩
  case subnVxVy => exact ⟨.subnVxVy (fieldX w) (fieldY w), rfl, nibbles_of_ends h⟩
  case shlVx => exact ⟨.shlVx (fieldX w) (fieldY w), rfl, nibbles_of_ends h⟩
  case sneVxVy => exact ⟨.sneVxVy (fieldX w) (fieldY w), rfl, nibbles_of_ends h⟩
  case ldINnn => exact ⟨.ldINnn (fieldNNN w), rfl, addressWord_of_family h⟩
  case jpV0 => exact ⟨.jpV0 (fieldNNN w), rfl, addressWord_of_family h⟩
  case rnd => exact ⟨.rnd (fieldX w) (fieldNN w), rfl, byteWord_of_family h⟩
  case drw => exact ⟨.drw (fieldX w) (fieldY w) (fieldN w), rfl, nibbles_of_family h⟩
  case skp => exact ⟨.skp (fieldX w), rfl, byteWord_of_ends h⟩
  case sknp => exact ⟨.sknp (fieldX w), rfl, byteWord_of_ends h⟩
  case ldVxDt => exact ⟨.ldVxDt (fieldX w), rfl, byteWord_of_ends h⟩
  case ldVxK => exact ⟨.ldVxK (fieldX w), rfl, byteWord_of_ends h⟩
  case ldDtVx => exact ⟨.ldDtVx (fieldX w), rfl, byteWord_of_ends h⟩
  case ldStVx => exact ⟨.ldStVx (fieldX w), rfl, byteWord_of_ends h⟩
  case addIVx => exact ⟨.addIVx (fieldX w), rfl, byteWord_of_ends h⟩
  case ldFVx => exact ⟨.ldFVx (fieldX w), rfl, byteWord_of_ends h⟩
  case ldBVx => exact ⟨.ldBVx (fieldX w), rfl, byteWord_of_ends h⟩
  case ldMemVx => exact ⟨.ldMemVx (fieldX w), rfl, byteWord_of_ends h⟩
  case ldVxMem => exact ⟨.ldVxMem (fieldX w), rfl, byteWord_of_ends h⟩

/-- The decoder reads back every instruction with its operands, form by form. -/
theorem decode_encode (i : Instr) : decode (encode i) = .instr i := by
  cases i with
  | cls | ret => rfl
  | jp nnn | call nnn | ldINnn nnn | jpV0 nnn =>
    simp [encode, decode, fieldF_addressWord, fieldNNN_addressWord]
  | seVxNn x nn | sneVxNn x nn | ldVxNn x nn | addVxNn x nn | rnd x nn =>
    simp [encode, decode, fieldF_byteWord, fieldX_byteWord, fieldNN_byteWord]
  | seVxVy x y | sneVxVy x y | drw x y n =>
    simp [encode, decode, fieldF_nibbles, fieldX_nibbles, fieldY_nibbles, fieldN_nibbles]
  | ldVxVy x y | orVxVy x y | andVxVy x y | xorVxVy x y | addVxVy x y | subVxVy x y | shrVx x y | subnVxVy x y
  | shlVx x y =>
    simp [encode, decode, decode8, fieldF_nibbles, fieldX_nibbles, fieldY_nibbles, fieldN_nibbles]
  | skp x | sknp x =>
    simp [encode, decode, decodeE, fieldF_byteWord, fieldX_byteWord, fieldNN_byteWord]
  | ldVxDt x | ldVxK x | ldDtVx x | ldStVx x | addIVx x | ldFVx x | ldBVx x | ldMemVx x | ldVxMem x =>
    simp [encode, decode, decodeF, fieldF_byteWord, fieldX_byteWord, fieldNN_byteWord]

/-! Every instruction has one row -/

theorem mnemonic_inj_on_opcodeMap :
    ∀ ⦃r⦄, r ∈ opcodeMap → ∀ ⦃q⦄, q ∈ opcodeMap → r.mnemonic = q.mnemonic → r = q :=
  List.inj_on_of_nodup_map (by decide)

theorem exists_row_of_instr (i : Instr) : Laws.RowBits.Statement i := by
  cases i with
  | cls => exact Laws.RowBits.cls
  | ret => exact Laws.RowBits.ret
  | jp nnn => exact Laws.RowBits.jp nnn
  | call nnn => exact Laws.RowBits.call nnn
  | seVxNn x nn => exact Laws.RowBits.seVxNn x nn
  | sneVxNn x nn => exact Laws.RowBits.sneVxNn x nn
  | seVxVy x y => exact Laws.RowBits.seVxVy x y
  | ldVxNn x nn => exact Laws.RowBits.ldVxNn x nn
  | addVxNn x nn => exact Laws.RowBits.addVxNn x nn
  | ldVxVy x y => exact Laws.RowBits.ldVxVy x y
  | orVxVy x y => exact Laws.RowBits.orVxVy x y
  | andVxVy x y => exact Laws.RowBits.andVxVy x y
  | xorVxVy x y => exact Laws.RowBits.xorVxVy x y
  | addVxVy x y => exact Laws.RowBits.addVxVy x y
  | subVxVy x y => exact Laws.RowBits.subVxVy x y
  | shrVx x y => exact Laws.RowBits.shrVx x y
  | subnVxVy x y => exact Laws.RowBits.subnVxVy x y
  | shlVx x y => exact Laws.RowBits.shlVx x y
  | sneVxVy x y => exact Laws.RowBits.sneVxVy x y
  | ldINnn nnn => exact Laws.RowBits.ldINnn nnn
  | jpV0 nnn => exact Laws.RowBits.jpV0 nnn
  | rnd x nn => exact Laws.RowBits.rnd x nn
  | drw x y n => exact Laws.RowBits.drw x y n
  | skp x => exact Laws.RowBits.skp x
  | sknp x => exact Laws.RowBits.sknp x
  | ldVxDt x => exact Laws.RowBits.ldVxDt x
  | ldVxK x => exact Laws.RowBits.ldVxK x
  | ldDtVx x => exact Laws.RowBits.ldDtVx x
  | ldStVx x => exact Laws.RowBits.ldStVx x
  | addIVx x => exact Laws.RowBits.addIVx x
  | ldFVx x => exact Laws.RowBits.ldFVx x
  | ldBVx x => exact Laws.RowBits.ldBVx x
  | ldMemVx x => exact Laws.RowBits.ldMemVx x
  | ldVxMem x => exact Laws.RowBits.ldVxMem x

theorem encode_and_mask_of_mnemonic {i : Instr} {r : OpcodeRow} (hr : r ∈ opcodeMap) (h : i.mnemonic = r.mnemonic) :
    encode i &&& r.mask = r.bits := by
  obtain ⟨q, hq, hmnemonic, hbits⟩ := exists_row_of_instr i
  obtain rfl : q = r := mnemonic_inj_on_opcodeMap hq hr (hmnemonic.trans h)
  exact hbits

/-! A row's words -/

/-- Settles O3: a word of the row is the encoding of an instruction of the row, which decodes to itself; and the
encoding of an instruction has the fixed bits of the one row with its mnemonic. -/
theorem opcodeMapRowsAreDecoded : Obligations.OpcodeMapRowsAreDecoded := by
  intro w r hr
  constructor
  · intro h
    obtain ⟨i, hmnemonic, rfl⟩ := exists_encode_of_row w r hr h
    exact ⟨i, decode_encode i, hmnemonic, rfl⟩
  · rintro ⟨i, -, hmnemonic, rfl⟩
    exact encode_and_mask_of_mnemonic hr hmnemonic

/-! The fetch -/

/-- Settles O6: the word is the two bytes put together high byte first, and a byte is read modulo 4096. -/
theorem fetchReadsTwoBytesBigEndian : Obligations.FetchReadsTwoBytesBigEndian := by
  intro s
  rw [Machine.State.fetchWord, toNat_wordOfBytes, s.memByte_mod, s.memByte_mod]

end Sys2Proof
end

section
/-! The step on an unknown word (40_executor.md R125, 60_exceptions.md R262): the decoder gives the word back whole, and
the step then writes PC and the model's report and nothing else. -/
namespace Sys2Proof

/-! The decoder reports the fetched word itself, family by family (30_encoding.md R98) -/

section
variable {w u : Word}

theorem eq_of_decode0_eq_unknown (h : decode0 w = .unknown u) : u = w := by
  unfold decode0 at h
  split at h
  · cases h
  · split at h <;> cases h
    rfl

theorem eq_of_decode8_eq_unknown (h : decode8 w = .unknown u) : u = w := by
  unfold decode8 at h
  split at h <;> cases h
  rfl

theorem eq_of_decodeE_eq_unknown (h : decodeE w = .unknown u) : u = w := by
  unfold decodeE at h
  split at h <;> cases h
  rfl

theorem eq_of_decodeF_eq_unknown (h : decodeF w = .unknown u) : u = w := by
  unfold decodeF at h
  split at h <;> cases h
  rfl

/-- The families 5 and 9: an instruction under a condition on the low nibble, else the word. -/
theorem eq_of_ite_eq_unknown {c : Prop} [Decidable c] {i : Instr}
    (h : (if c then Decoded.instr i else .unknown w) = .unknown u) : u = w := by
  split at h <;> cases h
  rfl

/-- Arm `n + 1` of the decoder is family `n`; the ten families not named below hold no unknown word. -/
theorem eq_of_decode_eq_unknown (h : decode w = .unknown u) : u = w := by
  unfold decode at h
  split at h
  case h_1 => exact eq_of_decode0_eq_unknown h
  case h_6 => exact eq_of_ite_eq_unknown h
  case h_9 => exact eq_of_decode8_eq_unknown h
  case h_10 => exact eq_of_ite_eq_unknown h
  case h_15 => exact eq_of_decodeE_eq_unknown h
  case h_16 => exact eq_of_decodeF_eq_unknown h
  all_goals cases h

end

namespace Machine

/-! The step -/

theorem step_of_unknown {s : State} {w : Word} (hl : s.loaded = true) (hd : decode s.fetchWord = .unknown w) :
    step s = .next ((s.setPc s.pcNext).setReport (.unknownOpcode w)) := by
  rw [step, if_pos hl, hd, ← unknownOpcode_eq]

/-- Writing PC and the report, as the end of every step does, leaves the other parts alone. -/
theorem sameBut_setPc_setReport (s : State) (w : Word) (r : StepReport) :
    SameBut [.pc, .report] s ((s.setPc w).setReport r) :=
  ((sameBut_setPc s w).mono (by decide)).trans ((sameBut_setReport _ r).mono (by decide))

end Machine

/-- Settles O8: the decoder gave the fetched word back, and the step it leads to writes PC and the report alone. -/
theorem unknownWordOnlyAdvancesPc : Obligations.UnknownWordOnlyAdvancesPc := by
  intro s w hl hd
  exact ⟨eq_of_decode_eq_unknown hd, _, Machine.step_of_unknown hl hd, rfl,
    Machine.sameBut_setPc_setReport s _ _, s.toNat_pcNext⟩

end Sys2Proof
end

section
/-! Control flow (41_control_flow.md section 3). RET and CALL end as the stack's pop and push do (10_state.md R37): where
the stack operation answers a state the instruction completes on it, where it answers none the step is fatal. The jump
and the skips write PC alone. -/
namespace Sys2Proof

namespace Machine

/-! RET and CALL by what the stack answers -/

section
variable {s u : State} {w : Word} {nnn : Addr}

theorem exec_ret_of_pop (h : s.pop = some (w, u)) : exec .ret s = u.completeAt w := by
  simp only [exec, execRet, h]

theorem exec_ret_of_pop_none (h : s.pop = none) : exec .ret s = .fault .stackUnderflow := by
  simp only [exec, execRet, h]

theorem exec_call_of_push (h : s.push s.pcNext = some u) : exec (.call nnn) s = u.completeAt (zext16 nnn) := by
  simp only [exec, execCall, h]

theorem exec_call_of_push_none (h : s.push s.pcNext = none) : exec (.call nnn) s = .fault .stackOverflow := by
  simp only [exec, execCall, h]

/-! The frame and the result are those of the stack operation, with PC written last -/

theorem Completes.ret_of_pop {post : State → Prop} (h : s.pop = some (w, u))
    (hp : post ((u.setPc w).setReport .normal)) : Completes .ret s [.sp] post :=
  .of_completeAt (exec_ret_of_pop h) ((sameBut_pop s u w h).mono (by decide)) hp

theorem Completes.call_of_push {post : State → Prop} (h : s.push s.pcNext = some u)
    (hp : post ((u.setPc (zext16 nnn)).setReport .normal)) : Completes (.call nnn) s [.stack, .sp] post :=
  .of_completeAt (exec_call_of_push h) ((sameBut_push s u _ h).mono (by decide)) hp

end

/-! The skips on a comparison of two bytes (40_executor.md R128) -/

section
variable {i : Instr} {s : State} {a b : Byte}

theorem Completes.of_skipIf_beq (h : exec i s = s.skipIf (a == b)) :
    Completes i s [] fun t => Advanced (if a = b then 4 else 2) s t :=
  .of_skipIf h (by simp only [beq_iff_eq])

theorem Completes.of_skipIf_bne (h : exec i s = s.skipIf (a != b)) :
    Completes i s [] fun t => Advanced (if a = b then 2 else 4) s t :=
  .of_skipIf h (by simp only [bne_iff_ne, ite_not])

end

end Machine

open Machine

/-- In the families of the skips on two registers, any low nibble but 0 makes the word unknown (30_encoding.md R98). -/
theorem decode_registerSkip_unknown {f n : Nibble} (x y : RegIdx) (hf : f = 0x5#4 ∨ f = 0x9#4) (hn : n ≠ 0x0#4) :
    decode (f ++ x ++ y ++ n) = .unknown (f ++ x ++ y ++ n) := by
  rcases hf with rfl | rfl <;> simp [decode, fieldF_nibbles, fieldN_nibbles, hn]

/-- Settles O18: a stack of `k + 1` entries pops entry `k` into PC and keeps its storage; an empty one pops nothing. -/
theorem returnPopsTheStack : Obligations.ReturnPopsTheStack := by
  refine ⟨decode_encode .ret, fun s k hk hsp => ?_, fun s hsp => ?_⟩
  · exact .ret_of_pop (s.pop_eq k hk hsp) ⟨rfl, rfl⟩
  · exact exec_ret_of_pop_none (s.pop_empty hsp)

/-- Settles O20: below depth 16 the advanced PC becomes entry `SP`, and PC is NNN; at depth 16 nothing is pushed. -/
theorem callPushesReturnAddress : Obligations.CallPushesReturnAddress := by
  intro nnn s
  refine ⟨decode_encode (.call nnn), fun k hk hsp => ?_, fun hsp => ?_⟩
  · subst hsp
    refine .call_of_push (s.push_eq s.pcNext hk) ⟨?entry, rfl, toNat_zext16 nnn, fun j hj hne => ?others⟩
    case entry => simp only [State.setReport_stack, State.setPc_stack, Vector.getElem_set_self, s.toNat_pcNext]
    case others => exact Vector.getElem_set_ne hk hj hne.symm
  · exact exec_call_of_push_none (s.push_full _ hsp)

/-- Settles O21: the condition is the comparison of VX with NN. -/
theorem skipOnImmediate : Obligations.SkipOnImmediate := fun x nn _ =>
  ⟨decode_encode (.seVxNn x nn), decode_encode (.sneVxNn x nn), .of_skipIf_beq rfl, .of_skipIf_bne rfl⟩

/-- Settles O22: the condition is the comparison of VX with VY; the low nibble is a fixed digit of the word. -/
theorem skipOnRegisters : Obligations.SkipOnRegisters := fun x y _ =>
  ⟨decode_encode (.seVxVy x y), decode_encode (.sneVxVy x y),
    fun _ hn => ⟨decode_registerSkip_unknown x y (.inl rfl) hn, decode_registerSkip_unknown x y (.inr rfl) hn⟩,
    .of_skipIf_beq rfl, .of_skipIf_bne rfl⟩

/-- Settles O19: the step ends at the zero-extended address, from the state as it was. -/
theorem jumpSetsPc : Obligations.JumpSetsPc := fun nnn s =>
  ⟨decode_encode (.jp nnn), .of_completeAt rfl (SameBut.refl _ s) (toNat_zext16 nnn)⟩

end Sys2Proof
end

section
/-! Loads and the immediate add: one register written, no flag (42_alu.md section 2). They all end as `setV` followed by
the completion, so one rule gives their register, their frame and their PC; each proof adds what the written byte is. -/
namespace Sys2Proof

namespace Machine

/-- Writing one register leaves the others alone (10_state.md R31). -/
theorem regsBut_setV (s : State) (x : RegIdx) (b : Byte) : RegsBut [x] s (s.setV x b) := fun k hk => by
  rw [s.getV_setV, if_neg (by simpa using hk)]

/-- An instruction that writes one register and completes: no flag is written after it, so VF is a register as any
other (10_state.md R31). -/
theorem Completes.of_setV {i : Instr} {s : State} {x : RegIdx} {b : Byte} {post : State → Prop}
    (h : exec i s = (s.setV x b).complete)
    (hp : ∀ t, t.getV x = b → RegsBut [x] s t → Advanced 2 s t → post t) : Completes i s [.v] post := by
  refine .of_complete h rfl ((sameBut_setV s x b).mono (by decide)) ?_
  rintro t rfl hpc
  have hx : (s.setV x b).getV x = b := by rw [s.getV_setV, if_pos rfl]
  exact hp _ hx (regsBut_setV s x b) hpc

end Machine

open Machine

/-- Settles O29: the byte written is the 8-bit sum, which is the sum modulo 256, and VX is the one register written. -/
theorem addImmediateWrapsWithoutFlag : Obligations.AddImmediateWrapsWithoutFlag := by
  refine fun x nn s => ⟨decode_encode (.addVxNn x nn), .of_setV rfl fun t hx hregs hpc => ⟨?_, hregs, hpc⟩⟩
  rw [hx, toNat_sum8]

/-- Settles O28: the byte written is NN. -/
theorem loadImmediateSetsRegister : Obligations.LoadImmediateSetsRegister := fun x nn _ =>
  ⟨decode_encode (.ldVxNn x nn), .of_setV rfl fun _ hx hregs hpc => ⟨hx, hregs, hpc⟩⟩

/-- Settles O30: the byte written is VY as it was before. -/
theorem copyRegister : Obligations.CopyRegister := fun x y _ =>
  ⟨decode_encode (.ldVxVy x y), .of_setV rfl fun _ hx hregs hpc => ⟨hx, hregs, hpc⟩⟩

end Sys2Proof
end

section
/-! The index register and the bytes stored at I (43_index_memory.md sections 1 and 2). LD I, nnn ends as `setI`
followed by the completion, LD B, Vx as `storeBytes` from I on: one rule for each of the two ends. -/
namespace Sys2Proof

namespace Machine

section
variable {i : Instr} {s : State} {post : State → Prop}

/-- An instruction that writes I and completes. -/
theorem Completes.of_setI {w : Word} (h : exec i s = (s.setI w).complete)
    (hp : ∀ t, t.i = w → Advanced 2 s t → post t) : Completes i s [.i] post := by
  refine .of_complete h rfl ((sameBut_setI s w).mono (by decide)) ?_
  rintro t rfl hpc
  exact hp _ rfl hpc

/-- An instruction that stores bytes from I on, modulo 4096, and completes: each stored byte reads back, every other
byte of memory is as before (43_index_memory.md R206). -/
theorem Completes.of_storeBytes {bs : List Byte} (h : exec i s = (s.storeBytes s.base bs).complete)
    (hl : bs.length ≤ 4096)
    (hp : ∀ t, (∀ (k : Nat) (hk : k < bs.length), t.memByte (s.i.toNat + k) = bs[k]) →
      (∀ a, (∀ k < bs.length, a % 4096 ≠ (s.i.toNat + k) % 4096) → t.memByte a = s.memByte a) →
      Advanced 2 s t → post t) : Completes i s [.mem] post := by
  refine .of_complete h (storeBytes_pc _ _ _) ((sameBut_storeBytes bs s _).mono (by decide)) ?_
  rintro t rfl hpc
  exact hp _ (fun k hk => State.memByte_storeBytes_inside bs s s.base k hk hl)
    (fun a ha => State.memByte_storeBytes_outside bs s s.base a ha) hpc

end

/-! The decimal digits of a byte as numbers: no digit is cut to 8 bits -/

theorem map_toNat_decimalDigits (b : Byte) :
    (decimalDigits b).map BitVec.toNat = [b.toNat / 100, b.toNat / 10 % 10, b.toNat % 10] := by
  have hb : b.toNat < 256 := b.isLt
  have hundreds : b.toNat / 100 < 256 := by omega
  have tens : b.toNat / 10 % 10 < 256 := by omega
  have ones : b.toNat % 10 < 256 := by omega
  simp only [decimalDigits, List.map, BitVec.toNat_ofNat, Nat.reducePow, Nat.mod_eq_of_lt, hundreds, tens, ones]

end Machine

open Machine

/-- Settles O38: the word written to I is the address, zero-extended. -/
theorem loadIndexSetsI : Obligations.LoadIndexSetsI := by
  refine fun nnn s => ⟨decode_encode (.ldINnn nnn), .of_setI rfl fun t hi hpc => ⟨?_, hpc⟩⟩
  rw [hi, toNat_zext16]

/-- Settles O41: the three bytes stored from I on are the decimal digits of VX, and no other byte is stored. -/
theorem decimalDigitsAreStored : Obligations.DecimalDigitsAreStored := by
  refine fun x s => ⟨decode_encode (.ldBVx x), .of_storeBytes rfl (show 3 ≤ 4096 by decide)
    fun t stored others hpc => ?_⟩
  have digit (k : Nat) (hk : k < 3) : (t.memByte (s.i.toNat + k)).toNat
      = [(s.getV x).toNat / 100, (s.getV x).toNat / 10 % 10, (s.getV x).toNat % 10][k] := by
    rw [stored k hk]
    exact (List.getElem_map BitVec.toNat).symm.trans (List.getElem_of_eq (map_toNat_decimalDigits (s.getV x)) hk)
  exact ⟨digit 0 (by decide), digit 1 (by decide), digit 2 (by decide), others, hpc⟩

end Sys2Proof
end

section
/-! The clear display (44_display.md R221): CLS ends as `setDisp` of the buffer with no cell on, followed by the
completion. -/
namespace Sys2Proof

namespace Machine

/-- No coordinate, in range or wrapped, finds a cell that is on. -/
@[simp] theorem cellAt_clearDisplay (x y : Nat) : cellAt clearDisplay x y = false := by
  simp only [cellAt, clearDisplay, Vector.getElem_replicate]

/-- An instruction that writes the whole display and completes: VF is not written. -/
theorem Completes.of_setDisp {i : Instr} {s : State} {d : Display} {post : State → Prop}
    (h : exec i s = (s.setDisp d).complete) (hp : ∀ t, t.disp = d → Advanced 2 s t → post t) :
    Completes i s [.disp] post := by
  refine .of_complete h rfl ((sameBut_setDisp s d).mono (by decide)) ?_
  rintro t rfl hpc
  exact hp _ rfl hpc

end Machine

open Machine

/-- Settles O46: the display written is the clear one, whose every cell reads off. -/
theorem clearTurnsEveryCellOff : Obligations.ClearTurnsEveryCellOff := by
  refine ⟨decode_encode .cls, fun s => .of_setDisp rfl fun t hdisp hpc => ⟨fun x y => ?_, hpc⟩⟩
  rw [displayCell, hdisp, cellAt_clearDisplay]

end Sys2Proof
end

section
/-! The delay and sound timers (45_input_timers.md section 3). Reading DT is one more write of one register; setting a
timer ends as `setDt` or `setSt` followed by the completion, one rule for each. -/
namespace Sys2Proof

namespace Machine

section
variable {i : Instr} {s : State} {b : Byte} {post : State → Prop}

/-- An instruction that writes DT and completes. -/
theorem Completes.of_setDt (h : exec i s = (s.setDt b).complete)
    (hp : ∀ t, t.dt = b → Advanced 2 s t → post t) : Completes i s [.dt] post := by
  refine .of_complete h rfl ((sameBut_setDt s b).mono (by decide)) ?_
  rintro t rfl hpc
  exact hp _ rfl hpc

/-- An instruction that writes ST and completes. -/
theorem Completes.of_setSt (h : exec i s = (s.setSt b).complete)
    (hp : ∀ t, t.st = b → Advanced 2 s t → post t) : Completes i s [.st] post := by
  refine .of_complete h rfl ((sameBut_setSt s b).mono (by decide)) ?_
  rintro t rfl hpc
  exact hp _ rfl hpc

end

end Machine

open Machine

/-- Settles O50: the byte written is DT, and VX is the one register written. -/
theorem readDelayTimer : Obligations.ReadDelayTimer := fun x _ =>
  ⟨decode_encode (.ldVxDt x), .of_setV rfl fun _ hx hregs hpc => ⟨hx, hregs, hpc⟩⟩

/-- Settles O51: the byte written to the timer is VX, whatever the other timer holds. -/
theorem setTimers : Obligations.SetTimers := fun x _ =>
  ⟨decode_encode (.ldDtVx x), decode_encode (.ldStVx x),
    .of_setDt rfl fun _ hdt hpc => ⟨hdt, hpc⟩, .of_setSt rfl fun _ hst hpc => ⟨hst, hpc⟩⟩

end Sys2Proof
end

section
/-! The step that waits for a key and the host's tick (60_exceptions.md R265, R271, R273). FX0A with every key released
ends as `waitForKey` does; a tick is one write of each timer. -/
namespace Sys2Proof

namespace Machine

/-- With no key found the step waits (45_input_timers.md R244). -/
theorem exec_ldVxK_of_lowestKey_none {x : RegIdx} {s : State} (h : s.lowestKey = none) :
    exec (.ldVxK x) s = .next ((s.setExec .awaitingKey).setReport .waitingForKey) := by
  simp only [exec, execLdVxK, h, waitForKey_eq]

/-- Writing exec_state and the report, as a step that waits does, leaves the other parts alone. -/
theorem sameBut_setExec_setReport (s : State) (e : ExecState) (r : StepReport) :
    SameBut [.exec, .report] s ((s.setExec e).setReport r) :=
  ((sameBut_setExec s e).mono (by decide)).trans ((sameBut_setReport _ r).mono (by decide))

/-! A tick, timer by timer -/

/-- The subtraction on bytes is taken only where it does not wrap, so it is the one on numbers, which stops at 0. -/
theorem toNat_ticked (b : Byte) : (ticked b).toNat = b.toNat - 1 := by
  unfold ticked
  split
  case isTrue hzero => rw [hzero]; rfl
  case isFalse hne =>
    have hle : 1#8 ≤ b := BitVec.le_def.mpr (Nat.pos_of_ne_zero (BitVec.toNat_ne_iff_ne.mpr hne))
    exact BitVec.toNat_sub_of_le hle

@[simp] theorem tickTimers_dt (s : State) : (tickTimers s).dt = ticked s.dt := rfl

@[simp] theorem tickTimers_st (s : State) : (tickTimers s).st = ticked s.st := rfl

theorem sameBut_tickTimers (s : State) : SameBut [.dt, .st] s (tickTimers s) :=
  ((sameBut_setDt s _).mono (by decide)).trans ((sameBut_setSt _ _).mono (by decide))

theorem soundActive_iff (s : State) : soundActive s = true ↔ s.st.toNat ≠ 0 :=
  bne_iff_ne.trans BitVec.toNat_ne_iff_ne.symm

end Machine

open Machine

/-- Settles O54: each timer is written once with its value ticked, and the sound output reads ST alone. -/
theorem tickCountsDownToZero : Obligations.TickCountsDownToZero := by
  refine fun s => ⟨?dt, ?st, sameBut_tickTimers s, soundActive_iff s⟩
  case dt => rw [tickTimers_dt, toNat_ticked]
  case st => rw [tickTimers_st, toNat_ticked]

/-- Settles O52: with every key released no key is found, so the step waits. -/
theorem keyWaitChangesOnlyExecState : Obligations.KeyWaitChangesOnlyExecState := fun _ s hreleased =>
  ⟨_, exec_ldVxK_of_lowestKey_none (s.lowestKey_eq_none.mpr hreleased), rfl, rfl, sameBut_setExec_setReport s _ _⟩

end Sys2Proof
end

section
/-! Decoding and encoding are inverse to each other (30_encoding.md sections 2 to 4). A family of the decoder fixes the
nibbles that its pattern fixes, and the other fields of the word are its operands, so putting them together again gives
the word. -/
namespace Sys2Proof

/-- Settles O1: the fields of a word put together are the operands, form by form. -/
theorem encodedInstructionDecodesToItself : Obligations.EncodedInstructionDecodesToItself := decode_encode

section
variable {w : Word} {i : Instr}

theorem encode_of_decode0_eq_instr (h : decode0 w = .instr i) : encode i = w := by
  unfold decode0 at h
  split at h
  case isTrue hw => cases h; exact hw.symm
  case isFalse =>
    split at h <;> cases h
    case isTrue hw => exact hw.symm

/-- Every arm but the last has its family and its low nibble fixed. -/
theorem encode_of_decode8_eq_instr (hF : fieldF w = 0x8#4) (h : decode8 w = .instr i) : encode i = w := by
  have word : 0x8#4 ++ fieldX w ++ fieldY w ++ fieldN w = w := hF ▸ nibbles_of_word w
  unfold decode8 at h
  split at h <;> cases h <;> rename_i hN <;> rw [hN] at word <;> exact word

theorem encode_of_decodeE_eq_instr (hF : fieldF w = 0xE#4) (h : decodeE w = .instr i) : encode i = w := by
  have word : 0xE#4 ++ fieldX w ++ fieldNN w = w := hF ▸ byteWord_of_word w
  unfold decodeE at h
  split at h <;> cases h <;> rename_i hNN <;> rw [hNN] at word <;> exact word

theorem encode_of_decodeF_eq_instr (hF : fieldF w = 0xF#4) (h : decodeF w = .instr i) : encode i = w := by
  have word : 0xF#4 ++ fieldX w ++ fieldNN w = w := hF ▸ byteWord_of_word w
  unfold decodeF at h
  split at h <;> cases h <;> rename_i hNN <;> rw [hNN] at word <;> exact word

/-- The families 5 and 9, whose low nibble is fixed to 0. -/
theorem encode_of_registerSkip_eq_instr {j : Instr} (hj : encode j = fieldF w ++ fieldX w ++ fieldY w ++ 0x0#4)
    (h : (if fieldN w = 0x0#4 then Decoded.instr j else .unknown w) = .instr i) : encode i = w := by
  split at h <;> cases h
  case isTrue hN => rw [hj, ← hN, nibbles_of_word]

end

/-- The sixteenth family is the one left over. -/
theorem eq_F_of_ne : ∀ f : Nibble, f ≠ 0x0#4 → f ≠ 0x1#4 → f ≠ 0x2#4 → f ≠ 0x3#4 → f ≠ 0x4#4 → f ≠ 0x5#4 → f ≠ 0x6#4 →
    f ≠ 0x7#4 → f ≠ 0x8#4 → f ≠ 0x9#4 → f ≠ 0xA#4 → f ≠ 0xB#4 → f ≠ 0xC#4 → f ≠ 0xD#4 → f ≠ 0xE#4 → f = 0xF#4 := by
  intros; bv_omega

/-- Settles O2: the decoder drops no bit, family by family. -/
theorem decodedWordIsItsEncoding : Obligations.DecodedWordIsItsEncoding := by
  intro w i h
  have address := addressWord_of_word w
  have byte := byteWord_of_word w
  have nibbles := nibbles_of_word w
  unfold decode at h
  split at h <;> rename_i hF
  case h_1 => exact encode_of_decode0_eq_instr h
  case h_6 => exact encode_of_registerSkip_eq_instr (by rw [hF]; rfl) h
  case h_9 => exact encode_of_decode8_eq_instr hF h
  case h_10 => exact encode_of_registerSkip_eq_instr (by rw [hF]; rfl) h
  case h_15 => exact encode_of_decodeE_eq_instr hF h
  case h_16 => exact encode_of_decodeF_eq_instr (by apply eq_F_of_ne <;> assumption) h
  all_goals cases h; rw [hF] at address byte nibbles
  case h_2 | h_3 | h_11 | h_12 => exact address
  case h_14 => exact nibbles
  all_goals exact byte

theorem decode_eq_instr_iff {w : Word} {i : Instr} : decode w = .instr i ↔ encode i = w :=
  ⟨decodedWordIsItsEncoding w i, fun h => h ▸ decode_encode i⟩

end Sys2Proof
end

section
/-! The unknown space (30_encoding.md R98). Which words a family refuses depends on one field of the word; so the six
classes are read off the decoder's families, and each class is counted over one period of that field. -/
namespace Sys2Proof

/-! Which words a family of the decoder gives back -/

theorem exists_decode0_eq_unknown (w : Word) :
    (∃ u, decode0 w = .unknown u) ↔ [0x00E0, 0x00EE].contains w.toNat = false := by
  unfold decode0
  split
  case isTrue h => simp [h]
  case isFalse h =>
    split
    case isTrue h' => simp [h']
    case isFalse h' => simp_all [← BitVec.toNat_inj]

/-- The families 5 and 9. -/
theorem exists_registerSkip_eq_unknown {i : Instr} {w : Word} :
    (∃ u, (if fieldN w = 0x0#4 then Decoded.instr i else .unknown w) = .unknown u) ↔ w.toNat % 0x10 ≠ 0 := by
  rw [← toNat_fieldN]
  split <;> simp_all [← BitVec.toNat_inj]

theorem exists_decode8_eq_unknown (w : Word) : (∃ u, decode8 w = .unknown u) ↔
    [0x8, 0x9, 0xA, 0xB, 0xC, 0xD, 0xF].contains (w.toNat % 0x10) = true := by
  rw [← toNat_fieldN]
  unfold decode8
  split
  case h_10 =>
    have := (fieldN w).isLt
    simp_all [← BitVec.toNat_inj]
    omega
  all_goals simp [*]

theorem exists_decodeE_eq_unknown (w : Word) :
    (∃ u, decodeE w = .unknown u) ↔ [0x9E, 0xA1].contains (w.toNat % 0x100) = false := by
  rw [← toNat_fieldNN]
  unfold decodeE
  split <;> simp_all [← BitVec.toNat_inj]

theorem exists_decodeF_eq_unknown (w : Word) : (∃ u, decodeF w = .unknown u) ↔
    [0x07, 0x0A, 0x15, 0x18, 0x1E, 0x29, 0x33, 0x55, 0x65].contains (w.toNat % 0x100) = false := by
  rw [← toNat_fieldNN]
  unfold decodeF
  split <;> simp_all [← BitVec.toNat_inj]

/-- The decoder, family by family, gives back the six classes of 30_encoding.md R98. -/
theorem exists_decode_eq_unknown (w : Word) : (∃ u, decode w = .unknown u) ↔ unknownWord w = true := by
  unfold decode
  split <;> rename_i hF
  case h_16 =>
    have hF : fieldF w = 0xF#4 := by apply eq_F_of_ne <;> assumption
    have hf : w.toNat / 0x1000 = 0xF := by rw [← toNat_fieldF, hF]; rfl
    simp [unknownWord, hf, exists_decodeF_eq_unknown]
  all_goals have hf := (toNat_fieldF w).symm.trans (congrArg BitVec.toNat hF)
  case h_1 => simp [unknownWord, hf, exists_decode0_eq_unknown]
  case h_6 | h_10 => simp [unknownWord, hf, exists_registerSkip_eq_unknown]
  case h_9 => simp [unknownWord, hf, exists_decode8_eq_unknown]
  case h_15 => simp [unknownWord, hf, exists_decodeE_eq_unknown]
  all_goals simp [unknownWord, hf]

/-! How many words each class has -/

/-- A test of the residue modulo `b` holds `a` times as often below `a * b` as below `b`. -/
theorem length_filter_range_mul_mod (a b : Nat) (p : Nat → Bool) :
    ((List.range (a * b)).filter fun n => p (n % b)).length = a * ((List.range b).filter p).length := by
  induction a with
  | zero => simp
  | succ a ih =>
    have period : (List.range b).filter ((fun n => p (n % b)) ∘ (a * b + ·)) = (List.range b).filter p :=
      List.filter_congr fun n hn => by
        simp only [Function.comp_apply, Nat.mul_add_mod_self_right, Nat.mod_eq_of_lt (List.mem_range.mp hn)]
    rw [Nat.succ_mul, List.range_add, List.filter_append, List.length_append, ih, List.filter_map, List.length_map,
      period, Nat.succ_mul]

/-- A family holds as many unknown words as its class accepts values of the 12 bits below the family. -/
theorem length_filter_unknownWord (f : Nat) (p : Nat → Bool) (hf : f < 0x10)
    (h : ∀ w : Word, w.toNat / 0x1000 = f → unknownWord w = p (w.toNat % 0x1000)) :
    ((List.range 4096).filter fun n => unknownWord (BitVec.ofNat 16 (f * 4096 + n))).length
      = ((List.range 4096).filter p).length := by
  refine congrArg List.length (List.filter_congr fun n hn => ?_)
  have hn : n < 4096 := List.mem_range.mp hn
  have hw : (BitVec.ofNat 16 (f * 4096 + n)).toNat = f * 4096 + n := by
    rw [BitVec.toNat_ofNat]
    omega
  have hlow : (f * 4096 + n) % 0x1000 = n := by omega
  rw [h _ (by omega), hw, hlow]

/-- A class that tests the low bits modulo `b` accepts as many of the 12 bits as `a` of its periods do. -/
theorem length_filter_unknownWord_mod (f a b : Nat) (p : Nat → Bool) (hf : f < 0x10) (hab : a * b = 0x1000)
    (h : ∀ w : Word, w.toNat / 0x1000 = f → unknownWord w = p (w.toNat % b)) :
    ((List.range 4096).filter fun n => unknownWord (BitVec.ofNat 16 (f * 4096 + n))).length
      = a * ((List.range b).filter p).length := by
  rw [length_filter_unknownWord f (fun n => p (n % b)) hf, ← length_filter_range_mul_mod, hab]
  intro w hw
  rw [h w hw, ← hab, Nat.mod_mul_left_mod]

/-- All but the values of a list are left of a range that holds them. -/
theorem length_filter_range_not_contains (b : Nat) {l : List Nat} (hl : l.Nodup) (hb : ∀ n ∈ l, n < b) :
    ((List.range b).filter fun n => !l.contains n).length = b - l.length := by
  have hperm : ((List.range b).filter l.contains).Perm l :=
    (List.perm_ext_iff_of_nodup (List.nodup_range.filter _) hl).mpr fun n => by
      simpa [List.mem_filter] using hb n
  have htotal := List.length_eq_length_filter_add (l := List.range b) l.contains
  rw [List.length_range, hperm.length_eq] at htotal
  omega

/-- The class of a family whose instructions are the values `l` of the low bits modulo `b`. -/
theorem length_filter_unknownWord_not_contains (f a b : Nat) (l : List Nat) (hf : f < 0x10) (hab : a * b = 0x1000)
    (hl : l.Nodup) (hb : ∀ n ∈ l, n < b)
    (h : ∀ w : Word, w.toNat / 0x1000 = f → unknownWord w = !l.contains (w.toNat % b)) :
    ((List.range 4096).filter fun n => unknownWord (BitVec.ofNat 16 (f * 4096 + n))).length = a * (b - l.length) := by
  rw [length_filter_unknownWord_mod f a b (fun n => !l.contains n) hf hab h, length_filter_range_not_contains b hl hb]

/-- Settles O4: the classes are those of the decoder's families; one period of the field a class tests gives its
count. -/
theorem unknownSpaceIsExactly : Obligations.UnknownSpaceIsExactly := by
  refine ⟨exists_decode_eq_unknown, fun w u h => eq_of_decode_eq_unknown h, ?_⟩
  simp only [List.forall_mem_cons]
  refine ⟨?f0, ?f5, ?f8, ?f9, ?fE, ?fF, List.forall_mem_nil _⟩
  case f0 =>
    refine length_filter_unknownWord_not_contains 0x0 1 0x1000 [0x00E0, 0x00EE] (by decide) rfl (by decide)
      (by decide) fun w hw => ?_
    have hlow : w.toNat % 0x1000 = w.toNat := by omega
    simp [unknownWord, hw, hlow]
  case f5 =>
    exact length_filter_unknownWord_not_contains 0x5 0x100 0x10 [0x0] (by decide) rfl (by decide) (by decide)
      fun w hw => by simp [unknownWord, hw, bne, beq_eq_decide]
  case f8 =>
    have hcount := length_filter_unknownWord_mod 0x8 0x100 0x10 [0x8, 0x9, 0xA, 0xB, 0xC, 0xD, 0xF].contains
      (by decide) rfl fun w hw => by simp [unknownWord, hw]
    exact hcount.trans (by decide)
  case f9 =>
    exact length_filter_unknownWord_not_contains 0x9 0x100 0x10 [0x0] (by decide) rfl (by decide) (by decide)
      fun w hw => by simp [unknownWord, hw, bne, beq_eq_decide]
  case fE =>
    exact length_filter_unknownWord_not_contains 0xE 0x10 0x100 [0x9E, 0xA1] (by decide) rfl (by decide) (by decide)
      fun w hw => by simp [unknownWord, hw]
  case fF =>
    exact length_filter_unknownWord_not_contains 0xF 0x10 0x100 [0x07, 0x0A, 0x15, 0x18, 0x1E, 0x29, 0x33, 0x55, 0x65]
      (by decide) rfl (by decide) (by decide) fun w hw => by simp [unknownWord, hw]

/-- Settles O5: each of the ten words is decoded by computation. -/
theorem sampleWordsDecode : Obligations.SampleWordsDecode := by
  unfold Obligations.SampleWordsDecode
  decide

end Sys2Proof
end

section
/-! The outcomes of a step (60_exceptions.md section 1). An instruction ends in one of four ways: it completes, FX0A waits
for a key, or the stack makes CALL or RET fatal. Each way gives one outcome, and all but the first have a cause of
their own. -/
namespace Sys2Proof

namespace Machine

/-! The step by the state and the decoded word (40_executor.md R121) -/

theorem step_of_not_loaded {s : State} (hl : s.loaded = false) : step s = .refused .notLoaded := by
  rw [step, if_neg (by simp [hl])]

theorem step_of_instr {s : State} {i : Instr} (hl : s.loaded = true) (hd : decode s.fetchWord = .instr i) :
    step s = exec i s := by
  rw [step, if_pos hl, hd]

/-! The ways an instruction ends -/

/-- The stack, as a push finds it: full, or with room for the entry. -/
theorem State.push_cases (s : State) (w : Word) :
    s.sp.val = 16 ∧ s.push w = none ∨ s.sp.val < 16 ∧ ∃ u, s.push w = some u := by
  have hsp : s.sp.val < 17 := s.sp.isLt
  by_cases h : s.sp.val < 16
  · exact .inr ⟨h, _, s.push_eq w h⟩
  · have h : s.sp.val = 16 := by omega
    exact .inl ⟨h, s.push_full w h⟩

/-- The stack, as a pop finds it: empty, or with an entry to answer. -/
theorem State.pop_cases (s : State) : s.sp.val = 0 ∧ s.pop = none ∨ 0 < s.sp.val ∧ ∃ w u, s.pop = some (w, u) := by
  have hsp : s.sp.val < 17 := s.sp.isLt
  cases h : s.sp.val with
  | zero => exact .inl ⟨rfl, s.pop_empty h⟩
  | succ k => exact .inr ⟨k.succ_pos, _, _, s.pop_eq k (by omega) h⟩

theorem exec_ldVxK_of_lowestKey_some {x : RegIdx} {s : State} {k : Nat} (h : s.lowestKey = some k) :
    exec (.ldVxK x) s = ((s.setV x (BitVec.ofNat 8 k)).setExec .running).complete := by
  simp only [exec, execLdVxK, h]

/-- An instruction completes but for three causes. -/
theorem exec_completes_or (i : Instr) (s : State) :
    (∃ u w, exec i s = State.completeAt u w)
      ∨ (∃ nnn, i = .call nnn ∧ s.sp.val = 16 ∧ exec i s = .fault .stackOverflow)
      ∨ (i = .ret ∧ s.sp.val = 0 ∧ exec i s = .fault .stackUnderflow)
      ∨ (∃ x, i = .ldVxK x ∧ s.lowestKey = none ∧ exec i s = s.waitForKey) := by
  cases i
  case call nnn =>
    rcases s.push_cases s.pcNext with ⟨hsp, hpush⟩ | ⟨-, u, hpush⟩
    · exact .inr (.inl ⟨nnn, rfl, hsp, exec_call_of_push_none hpush⟩)
    · exact .inl ⟨_, _, exec_call_of_push hpush⟩
  case ret =>
    rcases s.pop_cases with ⟨hsp, hpop⟩ | ⟨-, w, u, hpop⟩
    · exact .inr (.inr (.inl ⟨rfl, hsp, exec_ret_of_pop_none hpop⟩))
    · exact .inl ⟨_, _, exec_ret_of_pop hpop⟩
  case ldVxK x =>
    cases hkey : s.lowestKey with
    | none => exact .inr (.inr (.inr ⟨x, rfl, rfl, exec_ldVxK_of_lowestKey_none hkey⟩))
    | some k => exact .inl ⟨_, _, exec_ldVxK_of_lowestKey_some hkey⟩
  all_goals exact .inl ⟨_, _, rfl⟩

/-! The outcome of a step and its cause -/

/-- What makes a step end other than Normal (60_exceptions.md R261 to R265), and Normal when nothing does. -/
def Cause (s : State) : StepOutcome → Prop
  | .stackOverflow => (∃ nnn, decode s.fetchWord = .instr (.call nnn)) ∧ s.sp.val = 16
  | .stackUnderflow => decode s.fetchWord = .instr .ret ∧ s.sp.val = 0
  | .unknownOpcode w => decode s.fetchWord = .unknown w
  | .waitingForKey => (∃ x, decode s.fetchWord = .instr (.ldVxK x)) ∧ s.lowestKey = none
  | .normal => True

/-- A step of a loaded core has an outcome, and under its cause. -/
theorem exists_stepOutcome_step {s : State} (hl : s.loaded = true) :
    ∃ o, stepOutcome (step s) = some o ∧ Cause s o := by
  cases hd : decode s.fetchWord with
  | unknown w => exact ⟨.unknownOpcode w, by rw [step_of_unknown hl hd]; rfl, hd⟩
  | instr i =>
    rw [step_of_instr hl hd]
    rcases exec_completes_or i s with ⟨u, w, h⟩ | ⟨nnn, rfl, hsp, h⟩ | ⟨rfl, hsp, h⟩ | ⟨x, rfl, hkey, h⟩ <;> rw [h]
    · exact ⟨.normal, rfl, trivial⟩
    · exact ⟨.stackOverflow, rfl, ⟨nnn, hd⟩, hsp⟩
    · exact ⟨.stackUnderflow, rfl, hd, hsp⟩
    · exact ⟨.waitingForKey, rfl, ⟨x, hd⟩, hkey⟩

/-- A cause other than Normal's brings its outcome about. -/
theorem stepOutcome_step_of_cause {s : State} (hl : s.loaded = true) {o : StepOutcome} (ho : o ≠ .normal)
    (h : Cause s o) : stepOutcome (step s) = some o := by
  cases o with
  | normal => exact absurd rfl ho
  | stackOverflow =>
    obtain ⟨⟨nnn, hd⟩, hsp⟩ := h
    rw [step_of_instr hl hd, exec_call_of_push_none (s.push_full _ hsp), stepOutcome]
  | stackUnderflow =>
    obtain ⟨hd, hsp⟩ := h
    rw [step_of_instr hl hd, exec_ret_of_pop_none (s.pop_empty hsp), stepOutcome]
  | unknownOpcode w => rw [step_of_unknown hl h]; rfl
  | waitingForKey =>
    obtain ⟨⟨x, hd⟩, hkey⟩ := h
    rw [step_of_instr hl hd, exec_ldVxK_of_lowestKey_none hkey]; rfl

theorem stepOutcome_step_iff {s : State} (hl : s.loaded = true) {o : StepOutcome} (ho : o ≠ .normal) :
    stepOutcome (step s) = some o ↔ Cause s o := by
  refine ⟨fun h => ?_, stepOutcome_step_of_cause hl ho⟩
  obtain ⟨o', ho', hc⟩ := exists_stepOutcome_step hl
  obtain rfl : o' = o := Option.some.inj (ho'.symm.trans h)
  exact hc

end Machine

/-! The causes as the word shows them -/

theorem exists_decode_eq_call (w : Word) : (∃ nnn, decode w = .instr (.call nnn)) ↔ w.toNat / 0x1000 = 0x2 := by
  simp only [decode_eq_instr_iff, ← toNat_fieldF]
  constructor
  · rintro ⟨nnn, rfl⟩
    rw [encode, fieldF_addressWord]
    rfl
  · intro h
    have hF : fieldF w = 0x2#4 := BitVec.eq_of_toNat_eq h
    exact ⟨fieldNNN w, by rw [encode, ← hF, addressWord_of_word]⟩

theorem decode_eq_ret_iff (w : Word) : decode w = .instr .ret ↔ w.toNat = 0x00EE := by
  rw [decode_eq_instr_iff, eq_comm]
  exact BitVec.toNat_inj.symm

theorem decode_eq_unknown_iff (w u : Word) : decode w = .unknown u ↔ unknownWord w = true ∧ u = w := by
  rw [← exists_decode_eq_unknown]
  constructor
  · exact fun h => ⟨⟨u, h⟩, eq_of_decode_eq_unknown h⟩
  · rintro ⟨⟨v, hv⟩, rfl⟩
    rwa [eq_of_decode_eq_unknown hv] at hv

theorem exists_decode_eq_ldVxK (w : Word) :
    (∃ x, decode w = .instr (.ldVxK x)) ↔ w.toNat / 0x1000 = 0xF ∧ w.toNat % 0x100 = 0x0A := by
  simp only [decode_eq_instr_iff, ← toNat_fieldF, ← toNat_fieldNN]
  constructor
  · rintro ⟨x, rfl⟩
    rw [encode, fieldF_byteWord, fieldNN_byteWord]
    exact ⟨rfl, rfl⟩
  · rintro ⟨hf, hnn⟩
    have hF : fieldF w = 0xF#4 := BitVec.eq_of_toNat_eq hf
    have hNN : fieldNN w = 0x0A#8 := BitVec.eq_of_toNat_eq hnn
    exact ⟨fieldX w, by rw [encode, ← hF, ← hNN, byteWord_of_word]⟩

open Machine

/-- Settles O10: each outcome but Normal arises under its cause alone, and the word at PC and SP show the cause. -/
theorem stepOutcomesHaveTheirCauses : Obligations.StepOutcomesHaveTheirCauses := by
  intro s hl
  refine ⟨?overflow, ?underflow, fun w => ?unknown, ?waiting, ?some⟩
  case overflow => rw [stepOutcome_step_iff hl (by decide), Cause, exists_decode_eq_call]
  case underflow => rw [stepOutcome_step_iff hl (by decide), Cause, decode_eq_ret_iff]
  case unknown => rw [stepOutcome_step_iff hl (by simp), Cause, decode_eq_unknown_iff]
  case waiting =>
    rw [stepOutcome_step_iff hl (by decide), Cause, exists_decode_eq_ldVxK, s.lowestKey_eq_none, and_assoc]
  case some =>
    obtain ⟨o, ho, -⟩ := exists_stepOutcome_step hl
    rw [ho]
    exact Option.some_ne_none o

/-- Settles O7: a loaded core's step is the execution of the decoded instruction and nothing else. -/
theorem stepRunsDecodedInstruction : Obligations.StepRunsDecodedInstruction := fun _ _ => step_of_instr

/-- Settles O9: the refused step leaves no state, and so no outcome. -/
theorem stepBeforeLoadIsRefused : Obligations.StepBeforeLoadIsRefused := by
  intro s hl
  rw [step_of_not_loaded hl]
  exact ⟨rfl, rfl⟩

end Sys2Proof
end

section
/-! Rules about every instruction (10_state.md sections 2 to 9): which parts, which registers and which stack entries one
may write, and how far it advances PC. Each is said of the effect (Laws/Exec.lean) an instruction has before PC and the
report are written. -/
namespace Sys2Proof

namespace Machine

section
variable {i : Instr} {s u t : State} {w : Word}

/-! The frame -/

theorem Effect.sameBut (h : Effect i s u w) : SameBut (writes i) s u := by
  cases i
  case cls => obtain ⟨rfl, -⟩ := h; exact sameBut_setDisp s _
  case ret => exact sameBut_pop s u w h
  case call nnn => exact sameBut_push s u _ h.1
  case rnd x nn =>
    obtain ⟨rfl, -⟩ := h
    exact ((sameBut_nextDraw s).mono (by simp [writes])).trans ((sameBut_setV _ x _).mono (by simp [writes]))
  case drw x y n => obtain ⟨rfl, -⟩ := h; exact sameBut_paint s _
  case ldVxK x =>
    obtain ⟨k, -, rfl, -⟩ := h
    exact ((sameBut_setV s x _).mono (by simp [writes])).trans ((sameBut_setExec _ _).mono (by simp [writes]))
  case ldDtVx x => obtain ⟨rfl, -⟩ := h; exact sameBut_setDt s _
  case ldStVx x => obtain ⟨rfl, -⟩ := h; exact sameBut_setSt s _
  case ldVxMem x => obtain ⟨rfl, -⟩ := h; exact sameBut_loadRegs s x _
  case ldINnn | addIVx | ldFVx => obtain ⟨rfl, -⟩ := h; exact sameBut_setI s _
  case ldBVx | ldMemVx => obtain ⟨rfl, -⟩ := h; exact sameBut_storeBytes _ s _
  case addVxVy | subVxVy | shrVx | subnVxVy | shlVx => obtain ⟨rfl, -⟩ := h; exact sameBut_setVWithFlag s _ _ _
  case ldVxNn | addVxNn | ldVxVy | orVxVy | andVxVy | xorVxVy | ldVxDt => obtain ⟨rfl, -⟩ := h; exact sameBut_setV s _ _
  all_goals obtain ⟨rfl, -⟩ := h; exact SameBut.refl _ u

/-- The whole instruction: its effect, then PC and the report; or the wait, which is FX0A's. -/
theorem sameBut_of_exec (h : exec i s = .next t) : SameBut (.pc :: .report :: writes i) s t := by
  rcases exec_cases h with ⟨x, rfl, -, rfl⟩ | ⟨u, w, he, rfl⟩
  · exact (sameBut_setExec_setReport s _ _).mono (by simp [writes])
  · exact (he.sameBut.mono (by simp +contextual)).trans ((sameBut_setPc_setReport u w _).mono (by simp))

/-! The registers -/

/-- The cases are the ways a register is written: with the flag after it, alone, or loaded from memory. The frame of the
other instructions leaves all registers out. -/
theorem Effect.getV_of_not_writesReg (h : Effect i s u w) {k : RegIdx} (hk : writesReg i k = false) :
    u.getV k = s.getV k := by
  cases i
  case addVxVy | subVxVy | shrVx | subnVxVy | shlVx =>
    obtain ⟨rfl, -⟩ := h
    simp only [writesReg, Bool.or_eq_false_iff, beq_eq_false_iff_ne] at hk
    rw [State.getV_setVWithFlag, if_neg hk.2, if_neg hk.1]
  case ldVxNn | addVxNn | ldVxVy | orVxVy | andVxVy | xorVxVy | ldVxDt =>
    obtain ⟨rfl, -⟩ := h
    exact regsBut_setV s _ _ k (by simpa [writesReg] using hk)
  case rnd x nn =>
    obtain ⟨rfl, -⟩ := h
    exact regsBut_setV s.nextDraw _ _ k (by simpa [writesReg] using hk)
  case ldVxK x =>
    obtain ⟨n, -, rfl, -⟩ := h
    exact regsBut_setV s _ _ k (by simpa [writesReg] using hk)
  case drw x y n =>
    obtain ⟨rfl, -⟩ := h
    exact regsBut_setV (s.setDisp _) _ _ k (by simpa [writesReg] using hk)
  case ldVxMem x =>
    obtain ⟨rfl, -⟩ := h
    rw [s.getV_loadRegs, if_neg (by simpa [writesReg] using hk)]
  all_goals exact h.sameBut .v (by simp [writes]) k

theorem getV_of_exec (h : exec i s = .next t) {k : RegIdx} (hk : writesReg i k = false) : t.getV k = s.getV k := by
  rcases exec_cases h with ⟨x, -, -, rfl⟩ | ⟨u, w, he, rfl⟩
  · rfl
  · exact he.getV_of_not_writesReg hk

/-! The stack -/

/-- Everything a push that succeeds can do. -/
theorem State.eq_of_push (h : s.push w = some u) : ∃ hsp : s.sp.val < 16,
    u = { s with stack := s.stack.set s.sp.val w hsp, sp := ⟨s.sp.val + 1, Nat.succ_lt_succ hsp⟩ } := by
  rcases s.push_cases w with ⟨-, hfull⟩ | ⟨hsp, -⟩
  · rw [hfull] at h
    cases h
  · rw [s.push_eq w hsp] at h
    exact ⟨hsp, (Option.some.inj h).symm⟩

/-- Everything a pop that succeeds can do to the state. -/
theorem State.eq_of_pop (h : s.pop = some (w, u)) : u = { s with sp := u.sp } := by
  unfold State.pop at h
  split at h <;> cases h
  rfl

/-- CALL alone writes the stack, and it writes the entry at SP. -/
theorem Effect.live_stack_entry (h : Effect i s u w) {j : Nat} (hj : j < 16) (hlive : j < s.sp.val) :
    u.stack[j] = s.stack[j] := by
  cases i
  case call nnn =>
    obtain ⟨hpush, -⟩ := h
    obtain ⟨hsp, rfl⟩ := State.eq_of_push hpush
    exact Vector.getElem_set_ne hsp hj hlive.ne'
  all_goals
    have hstack : u.stack = s.stack := h.sameBut .stack (by simp [writes])
    rw [hstack]

theorem live_stack_entry_of_exec (h : exec i s = .next t) {j : Nat} (hj : j < 16) (hlive : j < s.sp.val) :
    t.stack[j] = s.stack[j] := by
  rcases exec_cases h with ⟨x, -, -, rfl⟩ | ⟨u, w, he, rfl⟩
  · rfl
  · exact he.live_stack_entry hj hlive

/-! The advance of PC -/

/-- An instruction that ends in `complete` advances PC by 2, when what it did before left PC alone. -/
theorem advances_of_complete (h : exec i s = u.complete) (hpc : u.pc = s.pc) :
    ∃ t, exec i s = .next t ∧ t.report = .normal ∧ Advanced 2 s t :=
  ⟨_, h, rfl, by simp [Advanced, State.toNat_pcNext, hpc]⟩

end

end Machine

open Machine

/-- Settles O58: the effect of an instruction writes the parts its rule names, the end of the step PC and the report. -/
theorem everyInstructionKeepsItsFrame : Obligations.EveryInstructionKeepsItsFrame := fun _ _ _ => sameBut_of_exec

/-- Settles O59: the effect of an instruction writes the registers its rule names, the end of the step none. -/
theorem onlyNamedRegistersChange : Obligations.OnlyNamedRegistersChange := fun _ _ _ h _ => getV_of_exec h

/-- Settles O25: CALL writes the entry at SP, which is not live yet, and no other instruction writes the stack. -/
theorem liveStackEntriesSurvive : Obligations.LiveStackEntriesSurvive := fun _ _ _ h _ => live_stack_entry_of_exec h

/-- Settles O60: each of them ends in the default completion, after an effect that leaves PC alone. -/
theorem defaultAdvanceIsTwo : Obligations.DefaultAdvanceIsTwo := by
  intro i s hi
  cases i
  case ret | jp | call | jpV0 | seVxNn | sneVxNn | seVxVy | sneVxVy | skp | sknp | ldVxK => cases hi
  case ldBVx | ldMemVx => exact advances_of_complete rfl (storeBytes_pc _ _ _)
  case ldVxMem x => exact advances_of_complete rfl (s.loadRegs_pc x _)
  all_goals exact advances_of_complete rfl rfl

end Sys2Proof
end

section
/-! The invariant (10_state.md section 4, 40_executor.md section 2). Memory and I are kept by every effect; and an
instruction that completes leaves the executor running, for a core that awaits a key stands at an FX0A. -/
namespace Sys2Proof

namespace Machine

/-- The invariant speaks of six parts of the state. -/
theorem Invariant.congr {s t : State} (hs : Invariant s) (hmem : t.mem = s.mem) (hi : t.i = s.i) (hpc : t.pc = s.pc)
    (hexec : t.execState = s.execState) (hloaded : t.loaded = s.loaded) (hreport : t.report = s.report) :
    Invariant t := by
  have hfetch : t.fetchWord = s.fetchWord := fetchWord_congr (fun a => by rw [State.memByte, hmem, State.memByte]) hpc
  exact ⟨hmem ▸ hs.memWf, hi ▸ hs.indexLow, by rw [hexec, hloaded, hfetch]; exact hs.awaiting,
    by rw [hexec, hreport]; exact hs.reported⟩

/-- A running core meets the clauses about the wait when its last step did not report one. -/
theorem Invariant.of_running {s : State} (hmem : Memory.wf s.mem = true) (hi : s.i.toNat ≤ 0xFFF)
    (hexec : s.execState = .running) (hreport : s.report ≠ .waitingForKey) : Invariant s :=
  ⟨hmem, hi, by simp [hexec], by simp [hexec, hreport]⟩

/-- A core that does not await a key is running. -/
theorem running_of_ne_awaitingKey {e : ExecState} (h : e ≠ .awaitingKey) : e = .running := by
  cases e with
  | running => rfl
  | awaitingKey => exact absurd rfl h

section
variable {i : Instr} {s u t : State} {w : Word}

/-! Memory and I -/

/-- FX33 and FX55 alone write memory. -/
theorem Effect.wf_mem (h : Effect i s u w) (hs : Memory.wf s.mem = true) : Memory.wf u.mem = true := by
  cases i
  case ldBVx | ldMemVx => obtain ⟨rfl, -⟩ := h; exact State.wf_storeBytes _ s _ hs
  case ldVxMem x => obtain ⟨rfl, -⟩ := h; rwa [s.loadRegs_mem]
  case ldVxK x => obtain ⟨k, -, rfl, -⟩ := h; exact hs
  case call nnn =>
    obtain ⟨hpush, -⟩ := h
    obtain ⟨hsp, rfl⟩ := State.eq_of_push hpush
    exact hs
  case ret => rw [State.eq_of_pop h]; exact hs
  all_goals obtain ⟨rfl, -⟩ := h; exact hs

/-- The three writers of I keep bits 15 to 12 clear. -/
theorem Effect.index_le (h : Effect i s u w) (hs : s.i.toNat ≤ 0xFFF) : u.i.toNat ≤ 0xFFF := by
  cases i
  case ldINnn nnn =>
    obtain ⟨rfl, -⟩ := h
    rw [State.setI_i, toNat_zext16]
    exact Nat.le_of_lt_succ nnn.isLt
  case addIVx x =>
    obtain ⟨rfl, -⟩ := h
    rw [State.setI_i, toNat_indexPlus]
    exact Nat.le_of_lt_succ (Nat.mod_lt _ (by decide))
  case ldFVx x =>
    obtain ⟨rfl, -⟩ := h
    have hdigit := (lowNibble (s.getV x)).isLt
    rw [State.setI_i, toNat_glyphAddr]
    omega
  all_goals
    have hi : u.i = s.i := h.sameBut .i (by simp [writes])
    rwa [hi]

/-- FX0A sets the executor running, and no other instruction writes exec_state. -/
theorem Effect.running (h : Effect i s u w) (hs : s.execState = .awaitingKey → ∃ x, i = .ldVxK x) :
    u.execState = .running := by
  cases i
  case ldVxK x => obtain ⟨k, -, rfl, -⟩ := h; rfl
  all_goals
    have hexec : u.execState = s.execState := h.sameBut .exec (by simp [writes])
    rw [hexec]
    exact running_of_ne_awaitingKey fun ha => by obtain ⟨x, hx⟩ := hs ha; cases hx

/-! The step -/

theorem Invariant.of_exec (hs : Invariant s) (hl : s.loaded = true) (hd : decode s.fetchWord = .instr i)
    (h : exec i s = .next t) : Invariant t := by
  rcases exec_cases h with ⟨x, rfl, -, rfl⟩ | ⟨u, w, he, rfl⟩
  · exact ⟨hs.memWf, hs.indexLow, fun _ => ⟨hl, x, hd⟩, by simp⟩
  · refine .of_running (he.wf_mem hs.memWf) (he.index_le hs.indexLow) (he.running fun ha => ?_) (by simp)
    obtain ⟨-, x, hx⟩ := hs.awaiting ha
    exact ⟨x, Decoded.instr.inj (hd.symm.trans hx)⟩

theorem Invariant.of_step (hs : Invariant s) (h : step s = .next t) : Invariant t := by
  obtain ⟨hl, ⟨i, hd, he⟩ | ⟨w, hd, rfl⟩⟩ := step_cases h
  · exact hs.of_exec hl hd he
  · refine .of_running hs.memWf hs.indexLow (running_of_ne_awaitingKey fun ha => ?_) (by simp)
    obtain ⟨-, x, hx⟩ := hs.awaiting ha
    rw [hd] at hx
    cases hx

end

/-! The operations of the host -/

section
variable {s t : State}

/-- A ROM is accepted by a core that is not loaded, which then holds its bytes and is loaded. -/
theorem eq_of_loadRom {bytes : List Byte} (h : loadRom bytes s = .accepted t) :
    s.loaded = false ∧ t = (s.storeBytes Config.progBase bytes).setLoaded true := by
  unfold loadRom at h
  split at h
  case isTrue => cases h
  case isFalse hl =>
    split at h <;> cases h
    exact ⟨Bool.eq_false_iff.mpr hl, rfl⟩

theorem Invariant.of_setKey {k : Nat} {pressed : Bool} (hs : Invariant s) (h : setKey k pressed s = .next t) :
    Invariant t := by
  unfold setKey at h
  split at h <;> cases h
  exact hs.congr rfl rfl rfl rfl rfl rfl

/-- A core that can take a ROM is not loaded, so it does not await a key. -/
theorem Invariant.of_loadRom {bytes : List Byte} (hs : Invariant s) (h : loadRom bytes s = .accepted t) :
    Invariant t := by
  obtain ⟨hl, rfl⟩ := eq_of_loadRom h
  have hframe := sameBut_storeBytes bytes s Config.progBase
  have hi : (s.storeBytes Config.progBase bytes).i = s.i := hframe .i (by decide)
  have hexec : (s.storeBytes Config.progBase bytes).execState = s.execState := hframe .exec (by decide)
  have hreport : (s.storeBytes Config.progBase bytes).report = s.report := hframe .report (by decide)
  have hne : s.execState ≠ .awaitingKey := fun ha => by
    obtain ⟨hloaded, -⟩ := hs.awaiting ha
    rw [hl] at hloaded
    cases hloaded
  exact .of_running (State.wf_storeBytes bytes s _ hs.memWf) (hi ▸ hs.indexLow)
    (hexec.trans (running_of_ne_awaitingKey hne)) (hreport ▸ mt hs.reported.mpr hne)

theorem Invariant.of_applyEvent {e : Event} (hs : Invariant s) (h : applyEvent e s = .next t) : Invariant t := by
  cases e with
  | step => exact hs.of_step h
  | tick => cases h; exact hs.congr rfl rfl rfl rfl rfl rfl
  | setKey k pressed => exact hs.of_setKey h
  | loadRom bytes =>
    simp only [applyEvent] at h
    split at h
    · rename_i u hu
      cases h
      exact hs.of_loadRom hu
    · cases h
      exact hs
    · cases h

theorem Invariant.of_runSchedule {es : List Event} (hs : Invariant s) (h : runSchedule es s = .next t) :
    Invariant t := by
  induction es generalizing s with
  | nil => cases h; exact hs
  | cons e es ih =>
    obtain ⟨u, hu, ht⟩ := (runSchedule_cons e es s t).mp h
    exact ih (hs.of_applyEvent hu) ht

end

end Machine

open Machine

/-- Settles O15: an instruction keeps memory and I in their range and ends the wait or enters it; an unknown word is
met by a running core. -/
theorem stepKeepsInvariant : Obligations.StepKeepsInvariant := fun _ _ => Invariant.of_step

/-- Settles O16: every operation of the host keeps the invariant, so any list of them does. -/
theorem everyScheduleKeepsInvariant : Obligations.EveryScheduleKeepsInvariant := fun _ _ _ => Invariant.of_runSchedule

/-- Settles O17: the core stands at its FX0A, which with no key writes what is already there and with one completes. -/
theorem awaitingCoreWaitsOrCompletes : Obligations.AwaitingCoreWaitsOrCompletes := by
  intro s hs ha
  obtain ⟨hl, x, hd⟩ := hs.awaiting ha
  rw [step_of_instr hl hd]
  constructor
  · intro hreleased
    have hreport : s.report = .waitingForKey := hs.reported.mp ha
    rw [exec_ldVxK_of_lowestKey_none (s.lowestKey_eq_none.mpr hreleased), ← ha, ← hreport]
    rfl
  · rintro ⟨k, hk⟩
    cases hkey : s.lowestKey with
    | none =>
      rw [s.lowestKey_eq_none.mp hkey k] at hk
      cases hk
    | some n => exact ⟨_, exec_ldVxK_of_lowestKey_some hkey, rfl, rfl, State.toNat_pcNext _⟩

end Sys2Proof
end

section
/-! The jump through V0, the call with its return, and the two observations of a run (41_control_flow.md sections 3 and
4, 40_executor.md section 4). -/
namespace Sys2Proof

open Machine

/-- Settles O23: the target is the exact sum, which 16 bits hold. -/
theorem indexedJumpAddsV0 : Obligations.IndexedJumpAddsV0 := fun nnn s =>
  ⟨decode_encode (.jpV0 nnn), .of_completeAt rfl (SameBut.refl _ s) (toNat_indexedTarget nnn _)⟩

/-- Settles O24: the entry CALL pushes is the one RET pops, at the depth CALL left. -/
theorem returnUndoesCall : Obligations.ReturnUndoesCall := by
  intro nnn s k hk hsp
  obtain ⟨-, call, -⟩ := callPushesReturnAddress nnn s
  obtain ⟨-, ret, -⟩ := returnPopsTheStack
  obtain ⟨t, ht, -, -, hentry, hdepth, -⟩ := call k hk hsp
  refine ⟨t, ht, fun u husp hustack => ?_⟩
  obtain ⟨r, hr, -, -, hrsp, hrpc⟩ := ret u k hk (by rw [husp, hdepth])
  refine ⟨r, hr, ?_, Fin.ext (hrsp.trans hsp.symm)⟩
  rw [Advanced, hrpc, hustack, hentry]

namespace Machine

/-! The final state -/

/-- A final state jumps to where it stands. -/
theorem Final.decode_eq {s : State} (h : Final s) :
    ∃ nnn, decode s.fetchWord = .instr (.jp nnn) ∧ zext16 nnn = s.pc := by
  obtain ⟨-, hpc, hword⟩ := h
  have hnnn : (BitVec.ofNat 12 s.pc.toNat).toNat = s.pc.toNat := by
    rw [BitVec.toNat_ofNat]
    omega
  refine ⟨BitVec.ofNat 12 s.pc.toNat, decode_eq_instr_iff.mpr (BitVec.eq_of_toNat_eq ?_), BitVec.eq_of_toNat_eq ?_⟩
  · rw [encode, toNat_addressWord, hnnn, hword]
    rfl
  · rw [toNat_zext16, hnnn]

/-- So its step writes the report alone. -/
theorem Final.step_eq {s : State} (h : Final s) : step s = .next (s.setReport .normal) := by
  obtain ⟨nnn, hd, hpc⟩ := h.decode_eq
  rw [step_of_instr h.1 hd, exec, execJp, hpc]
  rfl

end Machine

/-- Settles O26: PC is written with its own value. -/
theorem finalStateIsFixed : Obligations.FinalStateIsFixed := fun s h =>
  ⟨_, h.step_eq, rfl, sameBut_setReport s _, h⟩

namespace Machine

/-! Observation after exactly k steps -/

/-- Every step of the schedule, run from `s`, leaves a report that counts. -/
def EveryStepCounts (es : List Event) (s : State) : Prop :=
  ∀ (ps qs : List Event) (u : State), es = ps ++ .step :: qs → runSchedule (ps ++ [.step]) s = .next u →
    u.report.counts = true

theorem everyStepCounts_nil (s : State) : EveryStepCounts [] s := by
  intro ps qs u h
  simp at h

/-- The first operation, if it is a step, and then the rest from the state it leaves. -/
theorem everyStepCounts_cons {e : Event} {es : List Event} {s u : State} (hu : applyEvent e s = .next u) :
    EveryStepCounts (e :: es) s ↔ (e = .step → u.report.counts = true) ∧ EveryStepCounts es u := by
  have cons (ps : List Event) (v : State) : runSchedule (e :: ps) s = .next v ↔ runSchedule ps u = .next v := by
    rw [runSchedule, hu]
  constructor
  · intro h
    refine ⟨?_, fun ps qs v hes hv => h (e :: ps) qs v (by rw [hes]; rfl) ((cons _ v).mpr hv)⟩
    rintro rfl
    exact h [] es u rfl ((cons [] u).mpr rfl)
  · rintro ⟨hfirst, hrest⟩ ps qs v hes hv
    cases ps with
    | nil =>
      obtain ⟨rfl, -⟩ := List.cons.inj hes
      obtain rfl : u = v := Host.Outcome.next.inj ((cons [] v).mp hv)
      exact hfirst rfl
    | cons p ps =>
      obtain ⟨rfl, htail⟩ := List.cons.inj hes
      exact hrest ps qs v htail ((cons _ v).mp hv)

/-- An observed run is a run in which every step counts. -/
theorem runCounted_eq_some_iff (es : List Event) (s t : State) :
    runCounted es s = some t ↔ runSchedule es s = .next t ∧ EveryStepCounts es s := by
  induction es generalizing s with
  | nil => simp [runCounted, runSchedule, everyStepCounts_nil]
  | cons e es ih =>
    rw [runCounted_cons, runSchedule_cons]
    constructor
    · rintro ⟨u, hu, ht⟩
      obtain ⟨hu, hcount⟩ := (countedEvent_eq_some e s u).mp hu
      obtain ⟨ht, hcounts⟩ := (ih u).mp ht
      exact ⟨⟨u, hu, ht⟩, (everyStepCounts_cons hu).mpr ⟨hcount, hcounts⟩⟩
    · rintro ⟨⟨u, hu, ht⟩, h⟩
      obtain ⟨hcount, hcounts⟩ := (everyStepCounts_cons hu).mp h
      exact ⟨u, (countedEvent_eq_some e s u).mpr ⟨hu, hcount⟩, (ih u).mpr ⟨ht, hcounts⟩⟩

end Machine

/-- Settles O27: the count is checked apart, and the counted run is the run in which every step counts. -/
theorem stepCountObservationIsExact : Obligations.StepCountObservationIsExact := by
  intro k es s t
  simp only [afterSteps, Option.ite_none_right_eq_some, runCounted_eq_some_iff, EveryStepCounts, StepReport.counts_iff]

end Sys2Proof
end

section
/-! Logic, arithmetic with a flag, shifts and random (42_alu.md sections 3 to 5). The flag writers end as `setVWithFlag`
followed by the completion: one rule gives VX, VF, the other registers and PC; each proof adds what the flag is. -/
namespace Sys2Proof

namespace Machine

/-- An instruction that writes a result to VX, then the flag to VF, and completes: VF holds the flag whatever X is, VX
the result unless X is F (42_alu.md R170). -/
theorem Completes.of_setVWithFlag {i : Instr} {s : State} {x : RegIdx} {b f : Byte} {post : State → Prop}
    (h : exec i s = (s.setVWithFlag x b f).complete)
    (hp : ∀ t, (x ≠ vf → t.getV x = b) → t.getV vf = f → RegsBut [x, vf] s t → Advanced 2 s t → post t) :
    Completes i s [.v] post := by
  refine .of_complete h rfl ((sameBut_setVWithFlag s x b f).mono (by decide)) ?_
  rintro t rfl hpc
  refine hp _ (fun hx => ?x) ?flag (fun k hk => ?others) hpc
  case x => exact (s.getV_setVWithFlag x x b f).trans (by rw [if_neg hx, if_pos rfl])
  case flag => exact (s.getV_setVWithFlag x vf b f).trans (if_pos rfl)
  case others =>
    simp only [List.mem_cons, List.not_mem_nil, or_false, not_or] at hk
    exact (s.getV_setVWithFlag x k b f).trans (by rw [if_neg hk.2, if_neg hk.1])

/-! The flags as numbers -/

theorem toNat_flag_carry (a b : Byte) :
    (flagByte (carry a b)).toNat = if 256 ≤ a.toNat + b.toNat then 1 else 0 := by
  rw [toNat_flagByte]
  simp only [carry, decide_eq_true_eq]

theorem toNat_flag_notBorrow (a b : Byte) :
    (flagByte (notBorrow a b)).toNat = if b.toNat ≤ a.toNat then 1 else 0 := by
  rw [toNat_flagByte]
  simp only [notBorrow, decide_eq_true_eq]

theorem flagByte_eq_zero_or_one (c : Bool) : flagByte c = 0#8 ∨ flagByte c = 1#8 := by cases c <;> simp [flagByte]

/-- An instruction whose last register write is a flag to VF. -/
theorem flag_of_complete {i : Instr} {s u : State} {c : Bool} (h : exec i s = (u.setV vf (flagByte c)).complete) :
    ∃ t, exec i s = .next t ∧ (t.getV vf = 0#8 ∨ t.getV vf = 1#8) := by
  refine ⟨_, h, ?_⟩
  have hflag : (u.setV vf (flagByte c)).getV vf = flagByte c := by rw [State.getV_setV, if_pos rfl]
  rw [State.getV_setReport, State.getV_setPc, hflag]
  exact flagByte_eq_zero_or_one c

end Machine

open Machine

/-- Settles O31: the byte written is the bitwise operation on VX and VY, and VX is the one register written. -/
theorem logicIsBitwiseWithoutFlag : Obligations.LogicIsBitwiseWithoutFlag := by
  intro x y s
  refine ⟨decode_encode (.orVxVy x y), decode_encode (.andVxVy x y), decode_encode (.xorVxVy x y), ?or, ?and, ?xor⟩
  case or => exact .of_setV rfl fun t hx hregs hpc => ⟨hregs, hpc, fun b => by rw [hx, BitVec.getLsbD_or]⟩
  case and => exact .of_setV rfl fun t hx hregs hpc => ⟨hregs, hpc, fun b => by rw [hx, BitVec.getLsbD_and]⟩
  case xor => exact .of_setV rfl fun t hx hregs hpc => ⟨hregs, hpc, fun b => by rw [hx, BitVec.getLsbD_xor]⟩

/-- Settles O32: the result is the 8-bit sum, the flag its carry. -/
theorem addSetsCarry : Obligations.AddSetsCarry := by
  refine fun x y s => ⟨decode_encode (.addVxVy x y), .of_setVWithFlag rfl fun t hx hflag hregs hpc =>
    ⟨fun hne => ?_, ?_, hregs, hpc⟩⟩
  · rw [hx hne, toNat_sum8]
  · rw [hflag, toNat_flag_carry]

/-- Settles O33: the result is the 8-bit difference, the flag that nothing was borrowed. -/
theorem subtractSetsNotBorrow : Obligations.SubtractSetsNotBorrow := by
  refine fun x y s => ⟨decode_encode (.subVxVy x y), .of_setVWithFlag rfl fun t hx hflag hregs hpc =>
    ⟨fun hne => ?_, ?_, hregs, hpc⟩⟩
  · rw [hx hne, toNat_diff8]
  · rw [hflag, toNat_flag_notBorrow]

/-- Settles O34: the same difference and flag with the operands exchanged. -/
theorem reverseSubtractSetsNotBorrow : Obligations.ReverseSubtractSetsNotBorrow := by
  refine fun x y s => ⟨decode_encode (.subnVxVy x y), .of_setVWithFlag rfl fun t hx hflag hregs hpc =>
    ⟨fun hne => ?_, ?_, hregs, hpc⟩⟩
  · rw [hx hne, toNat_diff8]
  · rw [hflag, toNat_flag_notBorrow]

/-- Settles O35: the result is VX halved or doubled, the flag the bit that falls out; VY is not read. -/
theorem shiftsMoveOutTheFlag : Obligations.ShiftsMoveOutTheFlag := by
  refine fun x y s => ⟨decode_encode (.shrVx x y), decode_encode (.shlVx x y), ?right, ?left⟩
  case right =>
    refine .of_setVWithFlag rfl fun t hx hflag hregs hpc => ⟨fun hne => ?_, ?_, hregs, hpc⟩
    · rw [hx hne, toNat_shiftRight8]
    · rw [hflag, toNat_flag_shiftedOutLow]
  case left =>
    refine .of_setVWithFlag rfl fun t hx hflag hregs hpc => ⟨fun hne => ?_, ?_, hregs, hpc⟩
    · rw [hx hne, toNat_shiftLeft8]
    · rw [hflag, toNat_flag_shiftedOutHigh]

/-- Settles O36: the draw moves the counter on, and the byte written is masked. -/
theorem randomIsMaskedFreeByte : Obligations.RandomIsMaskedFreeByte := by
  intro x nn s
  have hframe : SameBut [.v, .draws] s (s.nextDraw.setV x (s.drawnByte &&& nn)) :=
    Effect.sameBut (i := .rnd x nn) ⟨rfl, rfl⟩
  have hx : (s.nextDraw.setV x (s.drawnByte &&& nn)).getV x = Config.randomByte s.draws &&& nn := by
    rw [State.getV_setV, if_pos rfl, State.drawnByte]
  refine ⟨decode_encode (.rnd x nn), .of_complete rfl rfl (hframe.mono (by simp)) ?_⟩
  rintro t rfl hpc
  refine ⟨hx, fun b hb => ?_, rfl, regsBut_setV s.nextDraw x _, hpc⟩
  rw [State.getV_setReport, State.getV_setPc, hx, BitVec.getLsbD_and, hb, Bool.and_false]

/-- Settles O37: the last register write of each of the six is a flag to VF. -/
theorem flagIsZeroOrOne : Obligations.FlagIsZeroOrOne := by
  intro i s hi
  cases i
  case addVxVy | subVxVy | shrVx | subnVxVy | shlVx | drw => exact flag_of_complete rfl
  all_goals cases hi

end Sys2Proof
end

section
/-! The index register and the memory transfers of the registers (43_index_memory.md sections 1 and 2). FX1E and FX29 end
as `setI` followed by the completion, FX55 as `storeBytes` from I on, FX65 as `loadRegs`; what FX65 reads after a FX55,
and what the next fetch reads, follows from the bytes FX55 leaves. -/
namespace Sys2Proof

open Machine

/-- Settles O39: the word written to I is the sum reduced to 12 bits. -/
theorem addToIndexWrapsAt12Bits : Obligations.AddToIndexWrapsAt12Bits := by
  refine fun x s => ⟨decode_encode (.addIVx x), .of_setI rfl fun t hi hpc => ⟨?_, hpc⟩⟩
  rw [hi, toNat_indexPlus]

/-- Settles O40: the word written to I is the glyph address of the low nibble of VX. -/
theorem fontAddressOfLowNibble : Obligations.FontAddressOfLowNibble := by
  refine fun x s => ⟨decode_encode (.ldFVx x), .of_setI rfl fun t hi hpc => ⟨?_, hpc⟩⟩
  rw [hi, toNat_glyphAddr, toNat_lowNibble]

/-- Settles O42: the bytes stored from I on are V0 to VX in order, and no other byte is stored. -/
theorem registersAreStored : Obligations.RegistersAreStored := by
  intro x s
  have hlen := s.firstRegs_length x
  have hx : x.toNat < 16 := x.isLt
  refine ⟨decode_encode (.ldMemVx x), .of_storeBytes rfl (by omega) fun t stored others hpc =>
    ⟨fun k hk => ?_, fun a ha => others a fun k hk => ha k (by omega), hpc⟩⟩
  rw [stored k.toNat (by omega), s.firstRegs_getElem]

/-- Settles O43: a register up to VX is read from memory at I plus its index, and the others are not written. -/
theorem registersAreLoaded : Obligations.RegistersAreLoaded := by
  intro x s
  refine ⟨decode_encode (.ldVxMem x),
    .of_complete rfl (s.loadRegs_pc x s.base) ((sameBut_loadRegs s x _).mono (by decide)) ?_⟩
  rintro t rfl hpc
  refine ⟨fun k => ?_, hpc⟩
  rw [s.memByte_mod, State.getV_setReport, State.getV_setPc, s.getV_loadRegs, State.base]

/-- Settles O44: FX65 reads register k from the byte FX55 stored it to. -/
theorem storedRegistersLoadBack : Obligations.StoredRegistersLoadBack := by
  intro x s
  obtain ⟨-, t, ht, -, -, stored, -, -⟩ := registersAreStored x s
  refine ⟨t, ht, fun u hui humem => ?_⟩
  obtain ⟨-, r, hr, -, -, loaded, -⟩ := registersAreLoaded x u
  refine ⟨r, hr, fun k hk => ?_⟩
  rw [loaded k, if_pos hk, u.memByte_mod, humem, hui, stored k hk]

/-- Settles O45: PC has advanced to the address V0 was stored at, and V1 stands in the byte after it. -/
theorem storedWordIsFetchedNext : Obligations.StoredWordIsFetchedNext := by
  intro x s hx hi
  obtain ⟨-, t, ht, -, -, stored, -, hpc⟩ := registersAreStored x s
  refine ⟨t, ht, ?_⟩
  have hi : s.i.toNat % 4096 = t.pc.toNat % 4096 := by
    rw [hpc]
    omega
  have high : t.memByte t.pc.toNat = s.getV 0x0#4 := by
    rw [← stored 0x0#4 (Nat.zero_le _)]
    exact t.memByte_congr hi.symm
  have low : t.memByte (t.pc.toNat + 1) = s.getV 0x1#4 := by
    rw [← stored 0x1#4 hx]
    exact t.memByte_congr (Nat.ModEq.add_right 1 hi).symm
  rw [State.fetchWord, high, low, wordOfBytes]

end Sys2Proof
end

section
/-! The sprite (44_display.md sections 2 and 3). What a draw does to a canvas is said in Laws/Screen.lean for the cells its
1 bits fall on; here those are the covered cells of the display, and drawing them twice inverts them back. -/
namespace Sys2Proof

namespace Machine

/-! Coordinates count modulo the size of the display (44_display.md R220) -/

theorem cellAt_mod (d : Display) (x y : Nat) : cellAt d (x % 64) (y % 32) = cellAt d x y := by
  simp only [cellAt, Nat.mod_mod]

theorem rowsOn_mod (s : State) (x0 y0 n x y : Nat) : RowsOn s x0 y0 n (x % 64) (y % 32) ↔ RowsOn s x0 y0 n x y := by
  simp only [RowsOn, RowOn, PixelOn, Nat.mod_mod]

/-- The cells the drawing reaches are the covered ones. -/
theorem rowsOn_iff_covers (s : State) (x0 y0 n : Nat) (cx : Fin 64) (cy : Fin 32) :
    RowsOn s x0 y0 n cx.val cy.val ↔ Covers s x0 y0 n cx.val cy.val := by
  simp only [RowsOn, RowOn, PixelOn, Covers, spriteBit_eq, Nat.mod_eq_of_lt cx.isLt, Nat.mod_eq_of_lt cy.isLt,
    State.base]
  constructor
  · rintro ⟨r, hr, c, hc, hbit, hx, hy⟩
    exact ⟨r, c, hr, hc, hbit, hx.symm, hy.symm⟩
  · rintro ⟨r, c, hr, hc, hbit, hx, hy⟩
    exact ⟨r, hr, c, hc, hbit, hx.symm, hy.symm⟩

/-- The covered cells depend on memory and I alone. -/
theorem covers_congr {s u : State} (hi : u.i = s.i) (hmem : ∀ a, u.memByte a = s.memByte a) (x0 y0 n x y : Nat) :
    Covers u x0 y0 n x y ↔ Covers s x0 y0 n x y := by
  simp only [Covers, hi, hmem]

/-- What a test on cells finds anywhere, it finds on the display. -/
theorem exists_rowsOn_iff (s : State) (x0 y0 n : Nat) :
    (∃ x y, RowsOn s x0 y0 n x y ∧ cellAt s.disp x y = true)
      ↔ ∃ (cx : Fin 64) (cy : Fin 32), displayCell s cx cy = true ∧ Covers s x0 y0 n cx.val cy.val := by
  constructor
  · rintro ⟨x, y, hon, hcell⟩
    refine ⟨⟨x % 64, Nat.mod_lt _ (by decide)⟩, ⟨y % 32, Nat.mod_lt _ (by decide)⟩, ?_, ?_⟩
    · rwa [displayCell, cellAt_mod]
    · rwa [← rowsOn_iff_covers, rowsOn_mod]
  · rintro ⟨cx, cy, hcell, hcov⟩
    exact ⟨cx.val, cy.val, (rowsOn_iff_covers s x0 y0 n cx cy).mpr hcov, hcell⟩

theorem flagByte_eq_one_iff (c : Bool) : flagByte c = 1#8 ↔ c = true := by cases c <;> simp [flagByte]

end Machine

open Machine

/-- Settles O47: the canvas drawn is the display written, its collision the flag. -/
theorem drawInvertsCoveredCells : Obligations.DrawInvertsCoveredCells := by
  intro x y n s
  have hn : n.toNat ≤ 32 := by have := n.isLt; omega
  obtain ⟨hcells, hcollision⟩ := s.drawRows_draw ((s.getV x).toNat % 64) ((s.getV y).toNat % 32) n.toNat hn
  refine ⟨decode_encode (.drw x y n), .of_complete rfl rfl ((sameBut_paint s _).mono (by decide)) ?_⟩
  rintro t rfl hpc
  have hflag : ∀ c : Canvas, (s.paint c).getV vf = flagByte c.2 := fun c => by
    rw [State.paint, State.getV_setV, if_pos rfl]
  refine ⟨fun cx cy => ?cells, ?collision, ?flag, ?regs, hpc⟩
  case cells =>
    rw [← rowsOn_iff_covers]
    exact hcells cx.val cy.val
  case collision =>
    rw [State.getV_setReport, State.getV_setPc, hflag, flagByte_eq_one_iff, hcollision, exists_rowsOn_iff]
    simp
  case flag =>
    rw [State.getV_setReport, State.getV_setPc, hflag]
    exact flagByte_eq_zero_or_one _
  case regs => exact regsBut_setV (s.setDisp _) vf _

/-- Settles O48: both draws cover the same cells, so the second inverts back what the first inverted, and it finds a
covered cell on exactly where the first found it off. -/
theorem secondDrawErasesTheFirst : Obligations.SecondDrawErasesTheFirst := by
  intro x y n s
  obtain ⟨-, t, ht, -, -, first, -⟩ := drawInvertsCoveredCells x y n s
  refine ⟨t, ht, fun x' y' u hdisp hi hmem hx hy => ?_⟩
  obtain ⟨-, r, hr, -, -, second, collision, -⟩ := drawInvertsCoveredCells x' y' n u
  have hcell : ∀ cx cy, displayCell u cx cy = displayCell t cx cy := fun cx cy => by
    rw [displayCell, hdisp, displayCell]
  simp only [hx, hy, covers_congr hi hmem, hcell] at second collision
  refine ⟨r, hr, display_ext fun cx cy => ?restored,
    collision.trans (exists_congr fun cx => exists_congr fun cy => ?on)⟩
  all_goals
    obtain ⟨inverted, kept⟩ := first cx cy
    obtain ⟨inverted', kept'⟩ := second cx cy
    by_cases hcov : Covers s ((s.getV x).toNat % 64) ((s.getV y).toNat % 32) n.toNat cx.val cy.val
  case pos => exact (inverted' hcov).trans (by rw [inverted hcov, Bool.not_not, displayCell])
  case neg => exact (kept' hcov).trans (kept hcov)
  case pos => simp [inverted hcov, hcov]
  case neg => simp [kept hcov, hcov]

end Sys2Proof
end

section
/-! The keypad and the ROM load (45_input_timers.md sections 1 to 3, 60_exceptions.md section 3, 70_reset_and_hazards.md
section 2). -/
namespace Sys2Proof

open Machine

/-- Settles O49: the key of the condition is the one the low nibble of VX names. -/
theorem skipOnKey : Obligations.SkipOnKey := by
  refine fun x s => ⟨decode_encode (.skp x), decode_encode (.sknp x), fun k hk => ?_⟩
  obtain rfl : k = lowNibble (s.getV x) := BitVec.eq_of_toNat_eq (hk.trans (toNat_lowNibble _).symm)
  exact ⟨.of_skipIf rfl rfl, .of_skipIf rfl (by cases s.keyDown _ <;> rfl)⟩

/-- Settles O53: the key found is the smallest pressed one, and its index fits a byte. -/
theorem keyWaitStoresSmallestKey : Obligations.KeyWaitStoresSmallestKey := by
  refine fun x s => ⟨decode_encode (.ldVxK x), fun k hk hsmaller => ?_⟩
  have hkey : s.lowestKey = some k.toNat := (s.lowestKey_eq_some k).mpr ⟨hk, hsmaller⟩
  have hframe : SameBut [.v, .exec] s ((s.setV x (BitVec.ofNat 8 k.toNat)).setExec .running) :=
    Effect.sameBut (i := .ldVxK x) ⟨k.toNat, hkey, rfl, rfl⟩
  refine .of_complete (exec_ldVxK_of_lowestKey_some hkey) rfl (hframe.mono (by simp)) ?_
  rintro t rfl hpc
  refine ⟨?index, rfl, regsBut_setV s x _, hpc⟩
  case index =>
    have hlt : k.toNat < 16 := k.isLt
    rw [State.getV_setReport, State.getV_setPc, State.getV_setExec, s.getV_setV, if_pos rfl, BitVec.toNat_ofNat]
    omega

namespace Machine

/-! The host's operations by their arguments -/

theorem setKey_of_toNat (j : RegIdx) (pressed : Bool) (s : State) :
    setKey j.toNat pressed s = .next (s.setKeyAt j pressed) := by
  rw [setKey, if_pos j.isLt, BitVec.ofNat_toNat, BitVec.setWidth_eq]

section
variable {bytes : List Byte} {s : State}

theorem loadRom_of_loaded (hl : s.loaded = true) : loadRom bytes s = .refused .alreadyLoaded := by
  rw [loadRom, if_pos hl]

theorem loadRom_of_oversized (hl : s.loaded = false) (h : 3584 < bytes.length) : loadRom bytes s = .rejected := by
  rw [loadRom, if_neg (by simp [hl]), if_pos h]

theorem loadRom_of_fits (hl : s.loaded = false) (h : bytes.length ≤ 3584) :
    loadRom bytes s = .accepted ((s.storeBytes Config.progBase bytes).setLoaded true) := by
  rw [loadRom, if_neg (by simp [hl]), if_neg (Nat.not_lt.mpr h)]

end

end Machine

/-- Settles O55: the index names one key, which is written; an index of 16 or more names none. -/
theorem setKeyWritesOneKey : Obligations.SetKeyWritesOneKey := by
  refine fun s k pressed => ⟨?_, fun hk => ?_⟩
  · rintro j rfl
    refine ⟨_, setKey_of_toNat j pressed s, ?_, sameBut_setKeyAt s j pressed, fun i hi => ?_⟩
    · rw [s.keyDown_setKeyAt, if_pos rfl]
    · rw [s.keyDown_setKeyAt, if_neg hi]
  · rw [setKey, if_neg (Nat.not_lt.mpr hk)]

/-- Settles O56: a ROM that fits ends below address 4096, so its bytes stand one after the other from 0x200 on. -/
theorem acceptedRomIsWrittenVerbatim : Obligations.AcceptedRomIsWrittenVerbatim := by
  refine fun bytes s => ⟨fun hl hfits => ?_, loadRom_of_loaded⟩
  refine ⟨_, loadRom_of_fits hl hfits, rfl, fun k hk => ?stored, fun a ha hout => ?others, ?frame⟩
  case stored => exact State.memByte_storeBytes_inside bytes s 0x200 k hk (by omega)
  case others => exact State.memByte_storeBytes_outside bytes s 0x200 a fun k hk => by omega
  case frame =>
    exact ((sameBut_storeBytes bytes s _).mono (by decide)).trans ((sameBut_setLoaded _ true).mono (by decide))

/-- Settles O57: the length is checked before anything is written, and a rejection leaves the core as it was. -/
theorem oversizedRomIsRejectedWhole : Obligations.OversizedRomIsRejectedWhole := by
  intro bytes s hl hlen
  have hreject : loadRom bytes s = .rejected := loadRom_of_oversized hl hlen
  exact ⟨hreject, by rw [applyEvent, hreject]⟩

end Sys2Proof
end

section
/-! Construction (10_state.md sections 8 and 11, 70_reset_and_hazards.md section 1). What an address of the reset state
reads as, in the font and outside it; a core constructed with any font differs from it in memory alone. -/
namespace Sys2Proof

namespace Machine

/-! Memory after construction -/

theorem length_font : font.length = 80 := rfl

/-- The font's bytes in the font's place, zero elsewhere (10_state.md R43, R48). -/
theorem initialByte_eq (a : Nat) :
    initialByte a = if 0x050 ≤ a ∧ a < 0x0A0 then font.getD (a - 0x050) 0x00#8 else 0x00#8 := by
  unfold initialByte fontBase
  split
  case isTrue hlow =>
    split
    case isTrue => rfl
    case isFalse hhigh => exact List.getD_eq_default _ _ (by rw [length_font]; omega)
  case isFalse hlow => rw [if_neg (by omega)]

theorem memByte_reset (a : Nat) : State.reset.memByte a
    = if 0x050 ≤ a % 4096 ∧ a % 4096 < 0x0A0 then font.getD (a % 4096 - 0x050) 0x00#8 else 0x00#8 :=
  initialByte_eq (a % 4096)

theorem memByte_construct (glyphs : FontTable) (a : Nat) : (construct glyphs).memByte a
    = if h : 0x050 ≤ a % 4096 ∧ a % 4096 < 0x0A0 then glyphs[a % 4096 - 0x050] else 0x00#8 := by
  split
  case isTrue h =>
    have hk : a % 4096 - 0x050 < 80 := by omega
    rw [← memByte_construct_font glyphs _ hk]
    exact State.memByte_congr _ (by rw [fontBase]; omega)
  case isFalse h =>
    rw [memByte_construct_outside glyphs a fun k hk => by rw [fontBase]; omega, memByte_reset, if_neg h]

theorem invariant_reset : Invariant State.reset := .of_running rfl (by decide) rfl (by decide)

theorem invariant_construct (glyphs : FontTable) : Invariant (construct glyphs) := by
  have hframe := sameBut_construct glyphs
  have hi : (construct glyphs).i = 0x0000#16 := hframe .i (by decide)
  have hexec : (construct glyphs).execState = .running := hframe .exec (by decide)
  have hreport : (construct glyphs).report = .noStep := hframe .report (by decide)
  exact .of_running (wf_construct glyphs) (by rw [hi]; decide) hexec (by rw [hreport]; decide)

/-- The default font is what the font's place reads as, so storing it lists no byte. -/
theorem construct_defaultFont : construct defaultFont = State.reset := by
  refine State.storeBytes_initial _ _ _ rfl fun k hk => ?_
  have hk : k < 80 := by simpa using hk
  have hwrap : wrapAddr (fontBase + k) = 0x050 + k := Nat.mod_eq_of_lt (show 0x050 + k < 4096 by omega)
  rw [hwrap, initialByte_eq, if_pos (by omega), Nat.add_sub_cancel_left]
  simp [defaultFont]

end Machine

open Machine

/-- Settles O11: both are fields of the reset state. -/
theorem resetStartsAtProgramBase : Obligations.ResetStartsAtProgramBase := ⟨rfl, rfl⟩

/-- Settles O13: memory lists no byte, I is 0, and the core is running. -/
theorem resetMeetsInvariant : Obligations.ResetMeetsInvariant := invariant_reset

/-- Settles O12: memory reads as the font and zeros; registers, stack entries, cells and keys are replicated zeros. -/
theorem resetClearsTheState : Obligations.ResetClearsTheState := by
  refine ⟨memByte_reset, fun x => ?v, rfl, fun k h => ?stack, rfl, rfl, rfl, fun x y => ?disp, fun k => ?key, rfl⟩
  case v => exact Vector.getElem_replicate _
  case stack => exact Vector.getElem_replicate _
  case disp => exact cellAt_clearDisplay _ _
  case key => exact Vector.getElem_replicate _

/-- Settles O14: construction stores the 80 bytes and nothing else. -/
theorem constructTakesAnyFont : Obligations.ConstructTakesAnyFont :=
  ⟨fun glyphs => ⟨memByte_construct glyphs, sameBut_construct glyphs, invariant_construct glyphs⟩,
    construct_defaultFont⟩

end Sys2Proof
end
